-- ==== Sys2Proof/Word.lean ====
section
/-! DEFINITION. The word types of the core and their plainest use. -/

namespace Sys2Proof

/-- A memory cell, a `V` register, a timer: 8 bits (rules R20, R26, R50). -/
abbrev Byte := BitVec 8

/-- `I`, `pc`, a call-stack entry, an instruction word: 16 bits (rules R22, R23, R24, R73). -/
abbrev Word := BitVec 16

/-- A register number, a key number or a row count: the value of a 4-bit field (rule R75). -/
abbrev Nibble := Fin 16

end Sys2Proof
end

