-- ==== Sys2Proof/Machine/Fields.lean ====
section
/-! DEFINITION. The fields of the instruction word (rule R9) and the byte order of the fetch (rule R53). -/

namespace Sys2Proof

/-- `op = w[15:12]` (R9): the category. -/
def fieldOp (w : Word) : BitVec 4 := w.extractLsb' 12 4

/-- `x = w[11:8]` (R9). -/
def fieldX (w : Word) : Nibble := (w.extractLsb' 8 4).toFin

/-- `y = w[7:4]` (R9). -/
def fieldY (w : Word) : Nibble := (w.extractLsb' 4 4).toFin

/-- `n = w[3:0]` (R9). -/
def fieldN (w : Word) : Nibble := (w.extractLsb' 0 4).toFin

/-- `kk = w[7:0]` (R9). -/
def fieldKk (w : Word) : Byte := w.extractLsb' 0 8

/-- `nnn = w[11:0]` (R9). -/
def fieldNnn (w : Word) : BitVec 12 := w.extractLsb' 0 12

/-- The instruction word of two consecutive bytes: the one at the lower address is `w[15:8]` (R53). -/
def joinBytes (first second : Byte) : Word := first ++ second

/-- The byte of a word that lies at the lower address (R53). -/
def firstByte (w : Word) : Byte := w.extractLsb' 8 8

/-- The byte of a word that lies at the higher address (R53). -/
def secondByte (w : Word) : Byte := w.extractLsb' 0 8

/-- A register number or row count as the four bits of its field. -/
def nibbleBits (x : Nibble) : BitVec 4 := BitVec.ofFin x

end Sys2Proof
end

