-- ==== Sys2Proof/Syntax.lean ====
section
/-! DEFINITION. The 34 instructions of rule R78, one constructor per row of the opcode map, in the map's order. The type of every
operand is exactly the range of its field (R75): a register number or a row count is a `Nibble`, `kk` has 8 bits, `nnn` has 12. -/

namespace Sys2Proof

/-- The instruction set (R78). -/
inductive Instr where
  /-- `00E0`, R140 -/
  | cls
  /-- `00EE`, R100 -/
  | ret
  /-- `1nnn`, R101 -/
  | jp (nnn : BitVec 12)
  /-- `2nnn`, R102 -/
  | call (nnn : BitVec 12)
  /-- `3xkk`, R103 -/
  | seImm (x : Nibble) (kk : Byte)
  /-- `4xkk`, R104 -/
  | sneImm (x : Nibble) (kk : Byte)
  /-- `5xy0`, R105 -/
  | seReg (x y : Nibble)
  /-- `6xkk`, R112 -/
  | ldImm (x : Nibble) (kk : Byte)
  /-- `7xkk`, R113 -/
  | addImm (x : Nibble) (kk : Byte)
  /-- `8xy0`, R114 -/
  | ldReg (x y : Nibble)
  /-- `8xy1`, R115 -/
  | orReg (x y : Nibble)
  /-- `8xy2`, R116 -/
  | andReg (x y : Nibble)
  /-- `8xy3`, R117 -/
  | xorReg (x y : Nibble)
  /-- `8xy4`, R118 -/
  | addReg (x y : Nibble)
  /-- `8xy5`, R119 -/
  | subReg (x y : Nibble)
  /-- `8xy6`, R120; execute ignores `y`, the word keeps it -/
  | shr (x y : Nibble)
  /-- `8xy7`, R121 -/
  | subn (x y : Nibble)
  /-- `8xyE`, R122; execute ignores `y`, the word keeps it -/
  | shl (x y : Nibble)
  /-- `9xy0`, R106 -/
  | sneReg (x y : Nibble)
  /-- `Annn`, R130 -/
  | ldI (nnn : BitVec 12)
  /-- `Bnnn`, R107 -/
  | jpV0 (nnn : BitVec 12)
  /-- `Cxkk`, R123 -/
  | rnd (x : Nibble) (kk : Byte)
  /-- `Dxyn`, R141 -/
  | drw (x y n : Nibble)
  /-- `Ex9E`, R150 -/
  | skp (x : Nibble)
  /-- `ExA1`, R151 -/
  | sknp (x : Nibble)
  /-- `Fx07`, R153 -/
  | ldVxDt (x : Nibble)
  /-- `Fx0A`, R152 -/
  | ldVxKey (x : Nibble)
  /-- `Fx15`, R154 -/
  | ldDtVx (x : Nibble)
  /-- `Fx18`, R155 -/
  | ldStVx (x : Nibble)
  /-- `Fx1E`, R131 -/
  | addI (x : Nibble)
  /-- `Fx29`, R132 -/
  | ldFont (x : Nibble)
  /-- `Fx33`, R133 -/
  | ldBcd (x : Nibble)
  /-- `Fx55`, R134 -/
  | storeRegs (x : Nibble)
  /-- `Fx65`, R135 -/
  | loadRegs (x : Nibble)
deriving DecidableEq, Repr

end Sys2Proof
end

