-- ==== Sys2Proof/WellFormed.lean ====
section
/-! DEFINITION. What the decoder checks of a word (rule R81). An `Instr` needs no check of its own: each operand's type is its field's
range and every value of every field is legal (R75), so the fixed nibbles of the word are all there is to check. -/

namespace Sys2Proof

/-- The sub-opcodes of category 8: the low nibble (R78). -/
def category8 : List Nibble := [0, 1, 2, 3, 4, 5, 6, 7, 0xE]

/-- The sub-opcodes of category E: the low byte (R78). -/
def categoryE : List Byte := [0x9E, 0xA1]

/-- The sub-opcodes of category F: the low byte (R78). -/
def categoryF : List Byte := [0x07, 0x0A, 0x15, 0x18, 0x1E, 0x29, 0x33, 0x55, 0x65]

/-- The word's fixed nibbles are those of a row of the opcode map (R81); the other words are the illegal ones (R82). -/
def wellFormedWord (w : Word) : Bool :=
  (fieldOp w != 0x0 || w == 0x00E0 || w == 0x00EE)
  && (fieldOp w != 0x5 || fieldN w == 0)
  && (fieldOp w != 0x8 || category8.contains (fieldN w))
  && (fieldOp w != 0x9 || fieldN w == 0)
  && (fieldOp w != 0xE || categoryE.contains (fieldKk w))
  && (fieldOp w != 0xF || categoryF.contains (fieldKk w))

end Sys2Proof
end

