-- ==== Sys2Proof/Config.lean ====
section
/-! DEFINITION. The parameters of rule R8: the fixed numbers, the default font table, and the one free value. -/

namespace Sys2Proof.Config

/-- `MEM_SIZE` (R8): the number of memory cells. -/
def memSize : Nat := 4096

/-- `LAST_FETCH_PC` (R8, R71): the largest `pc` a fetch accepts. -/
def lastFetchPc : Nat := 4094

/-- `PROG_BASE` (R8): the load address and the reset value of `pc`. -/
def progBase : Nat := 0x200

/-- `PROG_MAX` (R8): the largest program image, in bytes. -/
def progMax : Nat := 3584

/-- `FONT_LEN` (R8, R27): the font table is in the cells 0 to 79. -/
def fontLen : Nat := 80

/-- `STACK_DEPTH` (R8): call-stack entries. -/
def stackDepth : Nat := 16

/-- PRESUMED (log 1): the conventional table that R27 offers as the default of the open parameter `FONT`.
The parameter itself is the field `font` of the state; only `State.reset` uses this value of it. -/
def defaultFont : Vector Byte 80 := #v[
  0xF0, 0x90, 0x90, 0x90, 0xF0,  0x20, 0x60, 0x20, 0x20, 0x70,
  0xF0, 0x10, 0xF0, 0x80, 0xF0,  0xF0, 0x10, 0xF0, 0x10, 0xF0,
  0x90, 0x90, 0xF0, 0x10, 0x10,  0xF0, 0x80, 0xF0, 0x10, 0xF0,
  0xF0, 0x80, 0xF0, 0x90, 0xF0,  0xF0, 0x10, 0x20, 0x40, 0x40,
  0xF0, 0x90, 0xF0, 0x90, 0xF0,  0xF0, 0x90, 0xF0, 0x10, 0xF0,
  0xF0, 0x90, 0xF0, 0x90, 0x90,  0xE0, 0x90, 0xE0, 0x90, 0xE0,
  0xF0, 0x80, 0x80, 0x80, 0xF0,  0xE0, 0x90, 0x90, 0x90, 0xE0,
  0xF0, 0x80, 0xF0, 0x80, 0xF0,  0xF0, 0x80, 0xF0, 0x80, 0x80]

/-- The free value (R37, D12, log 3): the random byte of the STEP that draws number `k`. It has no body, so
nothing can be proved of it but that it is a byte. -/
opaque randomByte (k : Nat) : Byte

end Sys2Proof.Config
end

