-- ==== Sys2Proof/Machine/State.lean ====
section
/-! DEFINITION. Everything the spec gives the machine, as plain data (rule R32), with the spec's parameters and inputs beside it, and the
state right after RESET (rule R190). -/

namespace Sys2Proof.Machine

/-- The six events of the core's interface (R40). -/
inductive Event where
  /-- RESET, R190 -/
  | reset
  /-- LOAD of a program image, R192 -/
  | load (image : List Byte)
  /-- STEP with the host's random byte, R70 and R37 -/
  | step (rnd : Byte)
  /-- TICK, R180 -/
  | tick
  /-- KEY: the level of one key, R40 -/
  | key (k : Nibble) (down : Bool)
  /-- QUERY, R41 -/
  | query
deriving DecidableEq, Repr

/-- The named causes of rule R161; their codes are `Cause.code`. Raising one is a NEXT state (R162). -/
inductive Cause where
  /-- raised in decode by any STEP (R164) -/
  | unknownOpcode
  /-- raised by `2nnn` (R165) -/
  | stackOverflow
  /-- raised by `00EE` (R166) -/
  | stackUnderflow
  /-- raised in fetch by any STEP (R167) -/
  | pcOutOfRange
  /-- raised by `Dxyn`, `Fx33`, `Fx55`, `Fx65` (R168) -/
  | memAddressOutOfRange
  /-- raised by `Ex9E`, `ExA1` (R169) -/
  | keyIndexOutOfRange
deriving DecidableEq, Repr

/-- Why a step stops with no next state. -/
inductive Fault where
  /-- Raised by `2nnn` and `00EE` in a state whose `stack_pointer` is 17 to 31, values that R25 says never occur: the entry they would use
  does not exist. Safe: no state that a run reaches has such a pointer (log 6). -/
  | stackPointerIllegal
deriving DecidableEq, Repr

/-- Why an instruction is refused. -/
inductive Refusal where
  /-- Raised by an arm of `exec` whose instruction has no meaning yet. Safe: the run ends. No arm raises it now. -/
  | notModelled (mnemonic : String)
deriving DecidableEq, Repr

/-- `memory` (R27, R50): the cells whose content differs from their reset content, addresses strictly rising (log 8). -/
abbrev Memory := List Host.Cell

/-- `framebuffer` (R28): row `y` is 64 bits, and bit `x` of it is the pixel of column `x`, index `x + 64*y` (log 20). -/
abbrev Framebuffer := Vector (BitVec 64) 32

/-- The state of the core (R32), and the spec's parameters and inputs (R8, R31, R37) as the last four fields. -/
structure State where
  /-- `V[0..15]` (R20) -/
  v : Vector Byte 16
  /-- `I` (R22) -/
  i : Word
  /-- `pc` (R23) -/
  pc : Word
  /-- `stack[0..15]` (R24) -/
  stack : Vector Word 16
  /-- `stack_pointer` (R25) -/
  sp : BitVec 5
  /-- `delay_timer` (R26) -/
  dt : Byte
  /-- `sound_timer` (R26) -/
  st : Byte
  /-- `memory` (R27) -/
  memory : Memory
  /-- `framebuffer` (R28) -/
  fb : Framebuffer
  /-- `keys[0..15]` (R29) -/
  keys : Vector Bool 16
  /-- `fault_cause` (R30) -/
  faultCause : BitVec 3
  /-- the parameter `FONT[0..79]` (R27, log 1) -/
  font : Vector Byte 80
  /-- the random input of the STEP in progress (R37, log 3) -/
  rnd : Byte
  /-- how many free random bytes have been drawn (log 3) -/
  draws : Nat
  /-- the events the host presents next, oldest first: the parameter `SCHEDULE` (R7, log 4) -/
  hostEvents : List Event
deriving DecidableEq, Repr

/-- The machine right after RESET (R190, the Reset column of R32). The spec gives no value for `keys` (log 2), and the last four fields are the
model's own (logs 1, 3, 4). -/
def State.reset : State where
  v := Vector.replicate 16 0
  i := 0
  pc := 0x200
  stack := Vector.replicate 16 0
  sp := 0
  dt := 0
  st := 0
  memory := []
  fb := Vector.replicate 32 0
  keys := Vector.replicate 16 false
  faultCause := 0
  font := Config.defaultFont
  rnd := 0
  draws := 0
  hostEvents := []

end Sys2Proof.Machine
end

