-- ==== Sys2Proof/Machine/Ops.lean ====
section
/-! DEFINITION. The shared operations: memory, registers, `pc`, the call stack, raising a fault and the RESET that ends it, and the fetch. -/

namespace Sys2Proof.Machine

/-- What every step and every meaning answers. -/
abbrev Out := Host.Outcome State Fault Refusal

/-- What a cell holds after RESET, and so what an unlisted address reads as (R27, R52, R190): `FONT[a]` below 80, else 0. -/
def resetByte (font : Vector Byte 80) (a : Nat) : Byte := if h : a < 80 then font[a] else 0

/-- The listed content of a cell, if it is listed. -/
def Memory.listed (a : Nat) : Memory → Option Byte
  | [] => none
  | (b, v) :: m => if a = b then some v else Memory.listed a m

/-- List a cell at its place, in place of what was listed for it. -/
def Memory.put (a : Nat) (v : Byte) : Memory → Memory
  | [] => [(a, v)]
  | (b, w) :: m => if a < b then (a, v) :: (b, w) :: m else if a = b then (a, v) :: m else (b, w) :: Memory.put a v m

/-- Unlist a cell. -/
def Memory.unlist (a : Nat) : Memory → Memory
  | [] => []
  | (b, w) :: m => if a = b then Memory.unlist a m else (b, w) :: Memory.unlist a m

/-- `MemRead(a, 1)` (R11). -/
def Memory.read (font : Vector Byte 80) (m : Memory) (a : Nat) : Byte := (Memory.listed a m).getD (resetByte font a)

/-- `MemWrite(a, 1, v)` (R11), keeping the canonical form. -/
def Memory.write (font : Vector Byte 80) (m : Memory) (a : Nat) (v : Byte) : Memory :=
  if v = resetByte font a then Memory.unlist a m else Memory.put a v m

/-- The canonical form: addresses strictly rising, all of them cells of the address space (R50), no entry equal to the reset content. -/
def Memory.wf (font : Vector Byte 80) : Memory → Bool
  | [] => true
  | (a, v) :: m => decide (a < Config.memSize) && v != resetByte font a && m.all (fun c => decide (a < c.1)) && Memory.wf font m

/-- `V[x]` (R11, R20). -/
def State.getV (s : State) (x : Nibble) : Byte := s.v[x]

/-- `V[x] <- b` (R11, R20). -/
def State.setV (s : State) (x : Nibble) (b : Byte) : State := { s with v := s.v.set x b }

/-- `V[0..] <- bs`: register `k` takes entry `k` of `bs`, the registers beyond its end are unchanged (R135). -/
def State.setRegs (s : State) (bs : List Byte) : State :=
  { s with v := Vector.ofFn fun k : Fin 16 => bs.getD k.val (s.getV k) }

/-- `V[0], ..., V[x]` (R134). -/
def State.regsUpTo (s : State) (x : Nibble) : List Byte := s.v.toList.take (x.val + 1)

/-- `I <- a` (R22). -/
def State.setI (s : State) (a : Word) : State := { s with i := a }

/-- `pc <- a` (R23). -/
def State.setPc (s : State) (a : Word) : State := { s with pc := a }

/-- `DT <- b` (R26). -/
def State.setDt (s : State) (b : Byte) : State := { s with dt := b }

/-- `ST <- b` (R26). -/
def State.setSt (s : State) (b : Byte) : State := { s with st := b }

/-- The framebuffer is replaced (R28). -/
def State.setFb (s : State) (fb : Framebuffer) : State := { s with fb := fb }

/-- `keys[k] <- down` (R29). -/
def State.setKey (s : State) (k : Nibble) (down : Bool) : State := { s with keys := s.keys.set k down }

/-- `keys[k]` (R11, R29). -/
def State.key (s : State) (k : Nibble) : Bool := s.keys[k]

/-- The STEP's random input (R37). -/
def State.setRnd (s : State) (r : Byte) : State := { s with rnd := r }

/-- `MemRead(a, 1)` (R11). -/
def State.readMem (s : State) (a : Nat) : Byte := Memory.read s.font s.memory a

/-- `MemWrite(a, 1, b)` (R11). -/
def State.writeMem (s : State) (a : Nat) (b : Byte) : State := { s with memory := Memory.write s.font s.memory a b }

/-- Consecutive cells from `a` up, in order (R56). -/
def State.writeBytes (s : State) (a : Nat) : List Byte → State
  | [] => s
  | b :: bs => State.writeBytes (s.writeMem a b) (a + 1) bs

/-- The `n` consecutive cells from `a` up (R56). -/
def State.readBytes (s : State) (a n : Nat) : List Byte := (List.range n).map fun k => s.readMem (a + k)

/-- The blanket update `pc <- pc + 2` (R72): a plain 16-bit addition. -/
def State.advance (s : State) : State := s.setPc (s.pc + 2)

/-- The skip update (R72): `pc + 4` when the condition is true, else `pc + 2`. -/
def State.skipIf (s : State) (c : Bool) : State := s.setPc (if c then s.pc + 4 else s.pc + 2)

/-- The code of a cause (R161). -/
def Cause.code : Cause → BitVec 3
  | .unknownOpcode => 1
  | .stackOverflow => 2
  | .stackUnderflow => 3
  | .pcOutOfRange => 4
  | .memAddressOutOfRange => 5
  | .keyIndexOutOfRange => 6

/-- `raise c` (R162): taking an exception writes `fault_cause` and nothing else; no state is saved and `pc` stays. -/
def State.raise (s : State) (c : Cause) : State := { s with faultCause := c.code }

/-- `faulted` (R30): the core is halted. -/
def State.faulted (s : State) : Bool := s.faultCause != 0

/-- RESET (R190), the only way out of a fault (R172): every piece of core state to its reset value. `keys` belong to the host and are kept; so
are the model's own fields (logs 1, 3, 4). -/
def State.resetEvent (s : State) : State :=
  { s with v := Vector.replicate 16 0, i := 0, pc := 0x200, stack := Vector.replicate 16 0, sp := 0, dt := 0, st := 0,
           memory := [], fb := Vector.replicate 32 0, faultCause := 0 }

/-- Perform `t` when the check holds, else raise `c`: every check comes before the first write (R163). -/
def State.checked (s : State) (ok : Bool) (c : Cause) (t : State) : Out := .next (if ok then t else s.raise c)

/-- The range check of R57 on the `n` cells from `base` up: the last address, over the integers, is at most `0xFFF`; with no cell there is no check. -/
def cellsInRange (base n : Nat) : Bool := n == 0 || decide (base + (n - 1) ≤ 0xFFF)

/-- `2nnn` (R102): push the address of the call itself, then jump. A pointer above 16 never occurs (R25, log 6). -/
def State.callTo (s : State) (target : Word) : Out :=
  if s.sp = 16 then .next (s.raise .stackOverflow)
  else if h : s.sp.toNat < 16 then
    .next { s with stack := s.stack.set s.sp.toNat s.pc, sp := s.sp + 1, pc := target }
  else .fault .stackPointerIllegal

/-- `00EE` (R100): the popped entry keeps its value, and execution goes on two bytes after the call it names. A pointer above 16 never occurs
(R25, log 6). -/
def State.returnFromCall (s : State) : Out :=
  if s.sp = 0 then .next (s.raise .stackUnderflow)
  else if h : s.sp.toNat - 1 < 16 then
    .next { s with sp := s.sp - 1, pc := s.stack[s.sp.toNat - 1] + 2 }
  else .fault .stackPointerIllegal

/-- The fetch (R71): two bytes at `pc`, checked first; it changes nothing. -/
def State.fetch (s : State) : Except Cause Word :=
  if s.pc.toNat > Config.lastFetchPc then .error .pcOutOfRange
  else .ok (joinBytes (s.readMem s.pc.toNat) (s.readMem (s.pc.toNat + 1)))

/-- Fetch and decode (R70), in that order (R170). -/
def State.fetchDecode (s : State) : Except Cause Instr :=
  match s.fetch with
  | .error c => .error c
  | .ok w =>
    match decode w with
    | .error _ => .error .unknownOpcode
    | .ok i => .ok i

/-- The two bytes of a word at `a` and `a + 1`, the high byte first (R53). -/
def State.writeWord (s : State) (a : Nat) (w : Word) : State := s.writeBytes a [firstByte w, secondByte w]

end Sys2Proof.Machine
end

