-- ==== Sys2Proof/Machine/Flags.lean ====
section
/-! DEFINITION. The flag values that go to `V[15]` (rule R21), each the byte 0 or 1 (rule R10). -/

namespace Sys2Proof.Machine

/-- A comparison used as a value (R10). -/
def flagByte (c : Bool) : Byte := if c then 1 else 0

/-- Carry out of an 8-bit addition: `sum > 255` (R118). -/
def carryFlag (a b : Byte) : Byte := flagByte (decide (a.toNat + b.toNat > 255))

/-- The flag of a subtraction `a - b`: strictly greater, so 0 when they are equal (R111, R119, R121). -/
def greaterFlag (a b : Byte) : Byte := flagByte (decide (a.toNat > b.toNat))

/-- The bit a right shift puts out: bit 0 (R120). -/
def lowBitFlag (a : Byte) : Byte := a &&& 1

/-- The bit a left shift puts out: bit 7 (R122). -/
def highBitFlag (a : Byte) : Byte := a >>> 7

/-- Index overflow: the true sum, before the 16-bit wrap, is above `0xFFF` (R131). -/
def indexFlag (i : Word) (b : Byte) : Byte := flagByte (decide (i.toNat + b.toNat > 0xFFF))

/-- `V[15] <- f` (R21): the whole register. -/
def State.setFlag (s : State) (f : Byte) : State := s.setV 15 f

end Sys2Proof.Machine
end

