-- ==== Sys2Proof/Machine/Alu.lean ====
section
/-! DEFINITION. Register load, arithmetic, logic, shift, random: spec/41_alu.md. The statements of a row run in their written order and each
sees the writes of the earlier ones (rule R110): where a meaning reads a register from `t`, the flag has been written already. -/

namespace Sys2Proof.Machine

/-- `6xkk` (R112). -/
def execLdImm (x : Nibble) (kk : Byte) (s : State) : Out := .next (s.setV x kk).advance

/-- `7xkk` (R113): no flag. -/
def execAddImm (x : Nibble) (kk : Byte) (s : State) : Out := .next (s.setV x (s.getV x + kk)).advance

/-- `8xy0` (R114). -/
def execLdReg (x y : Nibble) (s : State) : Out := .next (s.setV x (s.getV y)).advance

/-- `8xy1` (R115): no flag. -/
def execOrReg (x y : Nibble) (s : State) : Out := .next (s.setV x (s.getV x ||| s.getV y)).advance

/-- `8xy2` (R116): no flag. -/
def execAndReg (x y : Nibble) (s : State) : Out := .next (s.setV x (s.getV x &&& s.getV y)).advance

/-- `8xy3` (R117): no flag. -/
def execXorReg (x y : Nibble) (s : State) : Out := .next (s.setV x (s.getV x ^^^ s.getV y)).advance

/-- `8xy4` (R118): the temporary `sum` reads both registers first; the result is written last. -/
def execAddReg (x y : Nibble) (s : State) : Out :=
  .next ((s.setFlag (carryFlag (s.getV x) (s.getV y))).setV x (s.getV x + s.getV y)).advance

/-- `8xy5` (R119). -/
def execSubReg (x y : Nibble) (s : State) : Out :=
  let t := s.setFlag (greaterFlag (s.getV x) (s.getV y))
  .next (t.setV x (t.getV x - t.getV y)).advance

/-- `8xy6` (R120): `y` is ignored. -/
def execShr (x _y : Nibble) (s : State) : Out :=
  let t := s.setFlag (lowBitFlag (s.getV x))
  .next (t.setV x (t.getV x >>> 1)).advance

/-- `8xy7` (R121). -/
def execSubn (x y : Nibble) (s : State) : Out :=
  let t := s.setFlag (greaterFlag (s.getV y) (s.getV x))
  .next (t.setV x (t.getV y - t.getV x)).advance

/-- `8xyE` (R122): `y` is ignored. -/
def execShl (x _y : Nibble) (s : State) : Out :=
  let t := s.setFlag (highBitFlag (s.getV x))
  .next (t.setV x (t.getV x <<< 1)).advance

/-- `Cxkk` (R123): the STEP's random input (R37). -/
def execRnd (x : Nibble) (kk : Byte) (s : State) : Out := .next (s.setV x (s.rnd &&& kk)).advance

end Sys2Proof.Machine
end

