-- ==== Sys2Proof/Machine/Operands.lean ====
section
/-! DEFINITION. The operand forms: widened immediates (rule R75), addresses formed from `I` (rule R136), key numbers (rule R150), the digits of
`Fx33` (rule R133) and the glyph address of `Fx29` (rule R132). -/

namespace Sys2Proof.Machine

/-- `zext_16(nnn)` (R75). -/
def addressOf (nnn : BitVec 12) : Word := nnn.setWidth 16

/-- `zext_16` of a register (R107, R131). -/
def widen (b : Byte) : Word := b.setWidth 16

/-- The base address of a data access: all 16 bits of `I` (R136). -/
def State.base (s : State) : Nat := s.i.toNat

/-- The key that a register names, if it is one of the 16 (R150). -/
def keyNumber (b : Byte) : Option Nibble := if h : b.toNat < 16 then some ⟨b.toNat, h⟩ else none

/-- The least pressed key, scanning from 0 upward (R152). -/
def State.firstKeyDown (s : State) : Option Nibble := (List.finRange 16).find? fun k => s.key k

/-- Hundreds, tens and ones, each a whole byte (R133). -/
def bcdDigits (b : Byte) : List Byte :=
  [BitVec.ofNat 8 (b.toNat / 100), BitVec.ofNat 8 (b.toNat / 10 % 10), BitVec.ofNat 8 (b.toNat % 10)]

/-- `V[x] * 5` with all 8 bits of the register (R132). -/
def glyphAddress (b : Byte) : Word := BitVec.ofNat 16 (b.toNat * 5)

end Sys2Proof.Machine
end

