-- ==== Sys2Proof/Machine/Display.lean ====
section
/-! DEFINITION. Clear and sprite draw: spec/43_display.md. -/

namespace Sys2Proof.Machine

/-- The pixel of column `px`, row `py` (R28). -/
def pixel (fb : Framebuffer) (px : Fin 64) (py : Fin 32) : Bool := fb[py].getLsbD px.val

/-- `fb[i]` (R11): pixel `i = x + 64*y` in row-major order (R28). -/
def pixelAt (fb : Framebuffer) (i : Fin 2048) : Bool := pixel fb (Fin.ofNat 64 i.val) (Fin.ofNat 32 (i.val / 64))

/-- `fb[i] <- fb[i] ^ 1` (R141). -/
def togglePixel (fb : Framebuffer) (px : Fin 64) (py : Fin 32) : Framebuffer := fb.set py (fb[py] ^^^ BitVec.twoPow 64 px.val)

/-- The innermost body of R141: bit `c` of sprite row `r`, the most significant bit first, on the pixel where it falls, each axis wrapped on its
own; the pair is the framebuffer and `coll`. -/
def drawPixel (ox oy r c : Nat) (b : Byte) (acc : Framebuffer × Bool) : Framebuffer × Bool :=
  if b.getLsbD (7 - c) then
    (togglePixel acc.1 (Fin.ofNat 64 (ox + c)) (Fin.ofNat 32 (oy + r)),
     acc.2 || pixel acc.1 (Fin.ofNat 64 (ox + c)) (Fin.ofNat 32 (oy + r)))
  else acc

/-- The first `k` columns of a sprite row (R141: `for c = 0 to 7`). -/
def drawRow (ox oy r : Nat) (b : Byte) : Nat → Framebuffer × Bool → Framebuffer × Bool
  | 0, acc => acc
  | c + 1, acc => drawPixel ox oy r c b (drawRow ox oy r b c acc)

/-- The first rows of the sprite whose row `r` is the byte `sprite[r]` (R141: `for r = 0 to n - 1`). -/
def drawRows (ox oy : Nat) (sprite : List Byte) : Nat → Framebuffer × Bool → Framebuffer × Bool
  | 0, acc => acc
  | r + 1, acc => drawRow ox oy r (sprite.getD r 0) 8 (drawRows ox oy sprite r acc)

/-- The sprite of `n` rows at `I`, drawn at the origin `(V[x] mod 64, V[y] mod 32)` (R141): the new framebuffer and the collision. -/
def State.drawSprite (s : State) (x y n : Nibble) : Framebuffer × Bool :=
  drawRows ((s.getV x).toNat % 64) ((s.getV y).toNat % 32) (s.readBytes s.base n.val) n.val (s.fb, false)

/-- `00E0` (R140): no flag. -/
def execCls (s : State) : Out := .next (s.setFb (Vector.replicate 32 0)).advance

/-- `Dxyn` (R141): the coordinates are read before `V[15]` is written, and it is written last. -/
def execDrw (x y n : Nibble) (s : State) : Out :=
  s.checked (cellsInRange s.base n.val) .memAddressOutOfRange
    ((s.setFb (s.drawSprite x y n).1).setFlag (flagByte (s.drawSprite x y n).2)).advance

end Sys2Proof.Machine
end

