-- ==== Sys2Proof/Machine/Flow.lean ====
section
/-! DEFINITION. Control transfer: spec/40_flow.md. In every meaning `pc` is the address of the instruction being executed (rule R23). -/

namespace Sys2Proof.Machine

/-- `00EE` (R100). -/
def execRet (s : State) : Out := s.returnFromCall

/-- `1nnn` (R101): no alignment or range check here (R108). -/
def execJp (nnn : BitVec 12) (s : State) : Out := .next (s.setPc (addressOf nnn))

/-- `2nnn` (R102). -/
def execCall (nnn : BitVec 12) (s : State) : Out := s.callTo (addressOf nnn)

/-- `3xkk` (R103). -/
def execSeImm (x : Nibble) (kk : Byte) (s : State) : Out := .next (s.skipIf (s.getV x == kk))

/-- `4xkk` (R104). -/
def execSneImm (x : Nibble) (kk : Byte) (s : State) : Out := .next (s.skipIf (s.getV x != kk))

/-- `5xy0` (R105). -/
def execSeReg (x y : Nibble) (s : State) : Out := .next (s.skipIf (s.getV x == s.getV y))

/-- `9xy0` (R106). -/
def execSneReg (x y : Nibble) (s : State) : Out := .next (s.skipIf (s.getV x != s.getV y))

/-- `Bnnn` (R107): always `V[0]`, a 16-bit sum, not reduced to 12 bits. -/
def execJpV0 (nnn : BitVec 12) (s : State) : Out := .next (s.setPc (addressOf nnn + widen (s.getV 0)))

end Sys2Proof.Machine
end

