-- ==== Sys2Proof/Machine/IndexMemory.lean ====
section
/-! DEFINITION. The index register, loads and stores: spec/42_index_memory.md. No access changes `I` (rule R136). -/

namespace Sys2Proof.Machine

/-- `Annn` (R130). -/
def execLdI (nnn : BitVec 12) (s : State) : Out := .next (s.setI (addressOf nnn)).advance

/-- `Fx1E` (R131): the flag first; `V[x]` is read again after it (R110). -/
def execAddI (x : Nibble) (s : State) : Out :=
  let t := s.setFlag (indexFlag s.i (s.getV x))
  .next (t.setI (t.i + widen (t.getV x))).advance

/-- `Fx29` (R132). -/
def execLdFont (x : Nibble) (s : State) : Out := .next (s.setI (glyphAddress (s.getV x))).advance

/-- `Fx33` (R133). -/
def execLdBcd (x : Nibble) (s : State) : Out :=
  s.checked (cellsInRange s.base 3) .memAddressOutOfRange (s.writeBytes s.base (bcdDigits (s.getV x))).advance

/-- `Fx55` (R134): `V[0]` to `V[x]`, both ends included. -/
def execStoreRegs (x : Nibble) (s : State) : Out :=
  s.checked (cellsInRange s.base (x.val + 1)) .memAddressOutOfRange (s.writeBytes s.base (s.regsUpTo x)).advance

/-- `Fx65` (R135): `V[0]` to `V[x]`, both ends included. -/
def execLoadRegs (x : Nibble) (s : State) : Out :=
  s.checked (cellsInRange s.base (x.val + 1)) .memAddressOutOfRange (s.setRegs (s.readBytes s.base (x.val + 1))).advance

end Sys2Proof.Machine
end

