-- ==== Sys2Proof/Machine/KeysTimers.lean ====
section
/-! DEFINITION. Key and timer instructions: spec/44_keys_timers.md. -/

namespace Sys2Proof.Machine

/-- Skip on the level of the key that a register names, or raise `KeyIndexOutOfRange` where it names none (R150, R151, R169). -/
def State.skipOnKey (s : State) (b : Byte) (down : Bool) : Out :=
  match keyNumber b with
  | some k => .next (s.skipIf (s.key k == down))
  | none => .next (s.raise .keyIndexOutOfRange)

/-- `Ex9E` (R150). -/
def execSkp (x : Nibble) (s : State) : Out := s.skipOnKey (s.getV x) true

/-- `ExA1` (R151). -/
def execSknp (x : Nibble) (s : State) : Out := s.skipOnKey (s.getV x) false

/-- `Fx0A` (R152): with no key down the STEP changes nothing, and the next one fetches the same instruction. -/
def execLdVxKey (x : Nibble) (s : State) : Out :=
  match s.firstKeyDown with
  | some k => .next (s.setV x (BitVec.ofNat 8 k.val)).advance
  | none => .next s

/-- `Fx07` (R153). -/
def execLdVxDt (x : Nibble) (s : State) : Out := .next (s.setV x s.dt).advance

/-- `Fx15` (R154). -/
def execLdDtVx (x : Nibble) (s : State) : Out := .next (s.setDt (s.getV x)).advance

/-- `Fx18` (R155). -/
def execLdStVx (x : Nibble) (s : State) : Out := .next (s.setSt (s.getV x)).advance

end Sys2Proof.Machine
end

