-- ==== Sys2Proof/Machine/Events.lean ====
section
/-! DEFINITION. The events other than STEP and RESET (rule R40), and what QUERY returns (rule R41). RESET is `State.resetEvent` of Ops. -/

namespace Sys2Proof.Machine

/-- An 8-bit counter goes one down, never below 0 (R180). -/
def countDown (b : Byte) : Byte := if b = 0 then 0 else b - 1

/-- TICK (R180): ignored while faulted (R40). -/
def State.tickEvent (s : State) : State :=
  if s.faulted then s else (s.setDt (countDown s.dt)).setSt (countDown s.st)

/-- LOAD (R192): from `0x200` up, at most 3584 bytes, the rest dropped (R193); ignored while faulted (R194). -/
def State.loadEvent (s : State) (image : List Byte) : State :=
  if s.faulted then s else s.writeBytes Config.progBase (image.take Config.progMax)

/-- KEY (R40): also while faulted. -/
def State.keyEvent (s : State) (k : Nibble) (down : Bool) : State := s.setKey k down

/-- What QUERY returns (R41, D24): all 2048 pixels, and every other piece of state of R32 (log 14). -/
structure Query where
  v : Vector Byte 16
  i : Word
  pc : Word
  stack : Vector Word 16
  sp : BitVec 5
  dt : Byte
  st : Byte
  memory : List Byte
  framebuffer : List Bool
  keys : Vector Bool 16
  faultCause : BitVec 3
deriving DecidableEq, Repr

/-- QUERY (R41): a function of the state, which it does not change. -/
def State.query (s : State) : Query where
  v := s.v
  i := s.i
  pc := s.pc
  stack := s.stack
  sp := s.sp
  dt := s.dt
  st := s.st
  memory := s.readBytes 0 Config.memSize
  framebuffer := (List.finRange 2048).map (pixelAt s.fb)
  keys := s.keys
  faultCause := s.faultCause

end Sys2Proof.Machine
end

