-- ==== Sys2Proof/Machine/Step.lean ====
section
/-! DEFINITION. The STEP event (rule R70), the six events together (rule R40), and the machine's step: the next event of the host's schedule. -/

namespace Sys2Proof.Machine

/-- STEP (R70): nothing while faulted; else fetch, decode, execute, with the host's random byte as this STEP's input (R37). -/
def State.stepEvent (s : State) (r : Byte) : Host.Outcome State Fault Refusal :=
  if s.faulted then .next s
  else
    match s.fetchDecode with
    | .error c => .next ((s.setRnd r).raise c)
    | .ok i => exec i (s.setRnd r)

/-- One event (R40). -/
def State.event (s : State) : Event → Host.Outcome State Fault Refusal
  | .reset => .next s.resetEvent
  | .load image => .next (s.loadEvent image)
  | .step r => s.stepEvent r
  | .tick => .next s.tickEvent
  | .key k down => .next (s.keyEvent k down)
  | .query => .next s

/-- One step of the machine: the oldest event the host presents (R7), or, when none is left, a STEP with a free random byte (logs 3, 4). -/
def step (s : State) : Host.Outcome State Fault Refusal :=
  match s.hostEvents with
  | e :: rest => State.event { s with hostEvents := rest } e
  | [] => State.stepEvent { s with draws := s.draws + 1 } (Config.randomByte s.draws)

/-- The instruction whose bits are `w` stored where the next step fetches: at `pc`, high byte first (R53). The fetch also needs a `pc` that it
accepts (R71), no fault recorded, and no host event before it (log 19). -/
def State.withFetchWord (s : State) (nbits w : Nat) : State :=
  let t : State := { s with pc := if s.pc.toNat > Config.lastFetchPc then 0x200 else s.pc, faultCause := 0, hostEvents := [] }
  t.writeWord t.pc.toNat (BitVec.ofNat 16 (w % 2 ^ nbits))

end Sys2Proof.Machine
end

