-- ==== Sys2Proof/Safety.lean ====
section
/-! DEFINITION. The terms that claims use: the invariant of the machine, a run over a schedule of events, the end of a program, what an
instruction leaves unchanged, and the pixels of a sprite. -/

namespace Sys2Proof.Machine

/-- What holds in every state a run reaches. -/
structure State.Inv (s : State) : Prop where
  /-- memory is in its canonical form, so no cell outside the 4096 is listed (R50, log 8) -/
  memory : Memory.wf s.font s.memory = true
  /-- `0 <= stack_pointer <= 16` (R25) -/
  sp : s.sp.toNat ≤ 16
  /-- a pushed address passed the fetch check (R100) -/
  stack : ∀ k : Fin 16, s.stack[k].toNat ≤ 4094
  /-- `pc` never exceeds `0x10FE` (R23) -/
  pc : s.pc.toNat ≤ 0x10FE
  /-- `fault_cause` is 0 or a code of R161; 7 is never produced -/
  cause : s.faultCause.toNat ≤ 6

/-- A schedule, event by event (R7); it ends at a stop. -/
def runEvents : List Event → State → Out
  | [], s => .next s
  | e :: es, s =>
    match s.event e with
    | .next t => runEvents es t
    | .fault f => .fault f
    | .refused r => .refused r

/-- The end of a program as R205 suggests it (`HALT_PRED`, log 17): no fault, and the word at `pc` is a jump to `pc`. -/
def State.halted (s : State) : Prop := s.faulted = false ∧ ∃ nnn, s.fetchDecode = .ok (.jp nnn) ∧ nnn.toNat = s.pc.toNat

/-- Every cell reads as before. -/
def sameMemory (s t : State) : Prop := ∀ a, t.readMem a = s.readMem a

/-- Nothing but `pc` may differ. -/
def onlyPc (s t : State) : Prop := t = { s with pc := t.pc } ∧ sameMemory s t

/-- Nothing but the `V` registers and `pc` may differ. -/
def onlyVPc (s t : State) : Prop := t = { s with v := t.v, pc := t.pc } ∧ sameMemory s t

/-- Nothing but `I`, the `V` registers and `pc` may differ. -/
def onlyVIPc (s t : State) : Prop := t = { s with v := t.v, i := t.i, pc := t.pc } ∧ sameMemory s t

/-- Nothing but `I` and `pc` may differ. -/
def onlyIPc (s t : State) : Prop := t = { s with i := t.i, pc := t.pc } ∧ sameMemory s t

/-- Nothing but memory and `pc` may differ. -/
def onlyMemoryPc (s t : State) : Prop := t = { s with memory := t.memory, pc := t.pc }

/-- Nothing but the framebuffer, the `V` registers and `pc` may differ. -/
def onlyVFbPc (s t : State) : Prop := t = { s with v := t.v, fb := t.fb, pc := t.pc } ∧ sameMemory s t

/-- Nothing but the call stack, its pointer and `pc` may differ. -/
def onlyStackPc (s t : State) : Prop := t = { s with stack := t.stack, sp := t.sp, pc := t.pc } ∧ sameMemory s t

/-- Of the `V` registers, only `V[x]` may differ. -/
def otherVSame (x : Nibble) (s t : State) : Prop := ∀ r, r ≠ x → t.getV r = s.getV r

/-- The words `w` with `w & mask = value` decode to the instruction that `f` makes of their fields (R78). -/
def decodesTo (mask value : Word) (f : Word → Instr) : Prop := ∀ w : Word, w &&& mask = value → decode w = .ok (f w)

/-- A 1 bit of the sprite of `Dxyn` falls on the pixel of column `px`, row `py`: bit `c` of row `r`, most significant bit first, at the origin
`(V[x] mod 64, V[y] mod 32)`, each axis wrapped on its own (R141, R142). -/
def State.spriteCovers (s : State) (x y n : Nibble) (px : Fin 64) (py : Fin 32) : Prop :=
  ∃ r c : Nat, r < n.val ∧ c < 8 ∧ (s.readMem (s.i.toNat + r)).getLsbD (7 - c) = true
    ∧ ((s.getV x).toNat % 64 + c) % 64 = px.val ∧ ((s.getV y).toNat % 32 + r) % 32 = py.val

/-- The instructions that write `V[15]` as a side effect (R21). -/
def writesFlag : Instr → Bool
  | .addReg _ _ | .subReg _ _ | .shr _ _ | .subn _ _ | .shl _ _ | .addI _ | .drw _ _ _ => true
  | .cls | .ret | .jp _ | .call _ | .seImm _ _ | .sneImm _ _ | .seReg _ _ | .ldImm _ _ | .addImm _ _ | .ldReg _ _ | .orReg _ _
  | .andReg _ _ | .xorReg _ _ | .sneReg _ _ | .ldI _ | .jpV0 _ | .rnd _ _ | .skp _ | .sknp _ | .ldVxDt _ | .ldVxKey _
  | .ldDtVx _ | .ldStVx _ | .ldFont _ | .ldBcd _ | .storeRegs _ | .loadRegs _ => false

/-- `V[r]` is a destination of the instruction (R20; the row "written by" of R32). -/
def hasDestination : Instr → Nibble → Bool
  | .ldImm x _, r | .addImm x _, r | .ldReg x _, r | .orReg x _, r | .andReg x _, r | .xorReg x _, r | .addReg x _, r
  | .subReg x _, r | .shr x _, r | .subn x _, r | .shl x _, r | .rnd x _, r | .ldVxDt x, r | .ldVxKey x, r => r == x
  | .loadRegs x, r => decide (r ≤ x)
  | .cls, _ | .ret, _ | .jp _, _ | .call _, _ | .seImm _ _, _ | .sneImm _ _, _ | .seReg _ _, _ | .sneReg _ _, _ | .ldI _, _
  | .jpV0 _, _ | .drw _ _ _, _ | .skp _, _ | .sknp _, _ | .ldDtVx _, _ | .ldStVx _, _ | .addI _, _ | .ldFont _, _
  | .ldBcd _, _ | .storeRegs _, _ => false

/-- What `pc` is after the instruction when it does not fault: the table of R23, the four kinds of R72. -/
def pcRule (i : Instr) (s : State) (p : Word) : Prop :=
  match i with
  | .jp nnn => p.toNat = nnn.toNat
  | .call nnn => p.toNat = nnn.toNat
  | .jpV0 nnn => p.toNat = nnn.toNat + (s.getV 0).toNat
  | .ret => ∃ k : Fin 16, k.val + 1 = s.sp.toNat ∧ p = s.stack[k] + 2
  | .seImm x kk => p = if s.getV x = kk then s.pc + 4 else s.pc + 2
  | .sneImm x kk => p = if s.getV x = kk then s.pc + 2 else s.pc + 4
  | .seReg x y => p = if s.getV x = s.getV y then s.pc + 4 else s.pc + 2
  | .sneReg x y => p = if s.getV x = s.getV y then s.pc + 2 else s.pc + 4
  | .skp x => ∃ k : Nibble, k.val = (s.getV x).toNat ∧ p = if s.key k then s.pc + 4 else s.pc + 2
  | .sknp x => ∃ k : Nibble, k.val = (s.getV x).toNat ∧ p = if s.key k then s.pc + 2 else s.pc + 4
  | .ldVxKey _ => p = if ∃ k, s.key k = true then s.pc + 2 else s.pc
  | .cls | .ldImm _ _ | .addImm _ _ | .ldReg _ _ | .orReg _ _ | .andReg _ _ | .xorReg _ _ | .addReg _ _ | .subReg _ _ | .shr _ _
  | .subn _ _ | .shl _ _ | .ldI _ | .rnd _ _ | .drw _ _ _ | .ldVxDt _ | .ldDtVx _ | .ldStVx _ | .addI _ | .ldFont _ | .ldBcd _
  | .storeRegs _ | .loadRegs _ => p = s.pc + 2

end Sys2Proof.Machine
end

