-- ==== Sys2Proof/Certificates/Slice0/Obligations.lean ====
section
/-! DEFINITION. The statements for the provers. Each docstring names the rule it formalises. Where it says "the spec's own decision D<n>" or
"the spec's own inference", the clause rests on one that spec/92_eei_decisions.md records or that the rule itself marks as derived, and where it says
"the model's choice", on the log entry it names. -/

open Sys2Proof Sys2Proof.Machine

/-- Words written out from the patterns of R78, and one from bytes in memory order (R53). -/
def Obligations.WordsOfTheSpecDecode : Prop :=
  decode 0x00E0 = .ok .cls ∧ decode 0x2300 = .ok (.call 0x300) ∧ decode 0x8014 = .ok (.addReg 0 1)
    ∧ decode 0xA20C = .ok (.ldI 0x20C) ∧ decode 0xD012 = .ok (.drw 0 1 2) ∧ decode 0xE39E = .ok (.skp 3)
    ∧ decode 0xF265 = .ok (.loadRegs 2) ∧ decodeBytes [0x12, 0x34, 0x56] = .ok (.jp 0x234, [0x56])

/-- The formats of R74, all operand values of R75: decoding the bytes of an instruction gives it back, and leaves what follows (R73). -/
def Obligations.DecodingAnEncodedInstructionGivesItBack : Prop :=
  ∀ (i : Instr) (rest : List Byte), decodeBytes (encodeBytes i ++ rest) = .ok (i, rest)

/-- No bit of a legal word is dropped: each instruction has the one word it was decoded from (R75, R83). -/
def Obligations.EncodingADecodedWordGivesItBack : Prop := ∀ (w : Word) (i : Instr), decode w = .ok i → encode i = w

/-- The decoder of R76 and the opcode map of R78 agree: a legal word selects one row of the map, that of the instruction it decodes to, and an
illegal word selects none. -/
def Obligations.AWordSelectsTheRowOfItsInstruction : Prop :=
  (∀ (w : Word) (i : Instr), decode w = .ok i →
    ∀ row ∈ opcodeMap, row.selects w = true ↔ opcodeMap[(rowOf i).val]? = some row)
  ∧ ∀ (w : Word) (e : DecodeError), decode w = .error e → ∀ row ∈ opcodeMap, row.selects w = false

/-- R82, with R81 (the spec's own decisions D4, D5): the illegal words are the six families, they are the words that `wellFormedWord` refuses, and a
STEP that fetches one raises `UnknownOpcode` with no other change (`rnd` is this STEP's input, log 3). -/
def Obligations.IllegalWordsRaiseUnknownOpcode : Prop :=
  (∀ w : Word, (∃ e, decode w = .error e) ↔
    (w.toNat / 4096 = 0x0 ∧ w.toNat ≠ 0x0E0 ∧ w.toNat ≠ 0x0EE)
    ∨ (w.toNat / 4096 = 0x5 ∧ w.toNat % 16 ≠ 0)
    ∨ (w.toNat / 4096 = 0x8 ∧ w.toNat % 16 ∈ [0x8, 0x9, 0xA, 0xB, 0xC, 0xD, 0xF])
    ∨ (w.toNat / 4096 = 0x9 ∧ w.toNat % 16 ≠ 0)
    ∨ (w.toNat / 4096 = 0xE ∧ w.toNat % 256 ∉ [0x9E, 0xA1])
    ∨ (w.toNat / 4096 = 0xF ∧ w.toNat % 256 ∉ [0x07, 0x0A, 0x15, 0x18, 0x1E, 0x29, 0x33, 0x55, 0x65]))
  ∧ (∀ w : Word, wellFormedWord w = false ↔ ∃ e, decode w = .error e)
  ∧ ∀ (s : State) (r : Byte) (w : Word) (e : DecodeError), s.faultCause = 0 → s.pc.toNat ≤ 4094 →
      w.toNat = (s.readMem s.pc.toNat).toNat * 256 + (s.readMem (s.pc.toNat + 1)).toNat → decode w = .error e →
      s.stepEvent r = .next { s with rnd := r, faultCause := 1 }

/-- R70 with R71: a STEP of a core that has not faulted checks `pc`, fetches the word high byte first, decodes, and executes what it decoded; a faulted
core does nothing (the spec's own decisions D7 and D16). -/
def Obligations.StepFetchesDecodesExecutes : Prop :=
  ∀ (s : State) (r : Byte),
    (s.faultCause ≠ 0 → s.stepEvent r = .next s)
    ∧ (s.faultCause = 0 → 4094 < s.pc.toNat → s.stepEvent r = .next { s with rnd := r, faultCause := 4 })
    ∧ ∀ w : Word, s.faultCause = 0 → s.pc.toNat ≤ 4094 →
        w.toNat = (s.readMem s.pc.toNat).toNat * 256 + (s.readMem (s.pc.toNat + 1)).toNat →
        (∀ e, decode w = .error e → s.stepEvent r = .next { s with rnd := r, faultCause := 1 })
        ∧ ∀ i, decode w = .ok i → s.stepEvent r = exec i { s with rnd := r }

/-- The machine's step (the model's choice of schedule, logs 3 and 4): it takes the host's oldest event; with none left it is, in every state, a STEP
with a free random byte. So when the bytes at `pc` decode to `i`, the step is `exec i`, with the input written and the event or the draw used up. -/
def Obligations.MachineStepRunsTheDecodedInstruction : Prop :=
  (∀ (s : State) (e : Event) (es : List Event), s.hostEvents = e :: es → step s = State.event { s with hostEvents := es } e)
  ∧ (∀ s : State, s.hostEvents = [] → step s = State.stepEvent { s with draws := s.draws + 1 } (Config.randomByte s.draws))
  ∧ ∀ (s : State) (i : Instr) (rest : List Byte), s.faultCause = 0 → s.pc.toNat ≤ 4094 →
      decodeBytes [s.readMem s.pc.toNat, s.readMem (s.pc.toNat + 1)] = .ok (i, rest) →
      (s.hostEvents = [] → step s = exec i { s with draws := s.draws + 1, rnd := Config.randomByte s.draws })
      ∧ ∀ (r : Byte) (es : List Event), s.hostEvents = .step r :: es → step s = exec i { s with hostEvents := es, rnd := r }

/-- R162, R172, R40 (the spec's own decisions D2, D16): `raise` writes the code and nothing else; a faulted core ignores STEP, TICK and LOAD, keeps its
cause under KEY and QUERY, and is left by RESET, which clears it. -/
def Obligations.AFaultedCoreIsFrozenUntilReset : Prop :=
  (∀ (s : State) (c : Cause), s.raise c = { s with faultCause := c.code } ∧ c.code ≠ 0)
  ∧ (∀ (s : State) (r : Byte) (image : List Byte), s.faultCause ≠ 0 →
      s.event (.step r) = .next s ∧ s.event .tick = .next s ∧ s.event (.load image) = .next s ∧ s.event .query = .next s)
  ∧ (∀ (s t : State) (e : Event), s.faultCause ≠ 0 → e ≠ .reset → s.event e = .next t → t.faultCause = s.faultCause)
  ∧ ∀ s : State, ∃ t, s.event .reset = .next t ∧ t.faultCause = 0

/-- R163 (the spec's own decision D2): a STEP that raises a fault changes no state but `fault_cause` (`rnd` is the STEP's input, log 3). -/
def Obligations.FaultsArePrecise : Prop :=
  ∀ (s t : State) (r : Byte), s.faultCause = 0 → s.stepEvent r = .next t → t.faultCause ≠ 0 →
    t = { s with rnd := r, faultCause := t.faultCause }

/-- R161, R164 to R170 (the spec's own decisions D3 to D9): after a STEP each code stands in `fault_cause` exactly when its condition holds, in the order fetch,
decode, execute; 7 never does. -/
def Obligations.EachFaultHasItsCondition : Prop :=
  ∀ (s t : State) (r : Byte), s.faultCause = 0 → s.stepEvent r = .next t →
    (t.faultCause = 4 ↔ 4094 < s.pc.toNat)
    ∧ (t.faultCause = 1 ↔ s.pc.toNat ≤ 4094 ∧ ∃ e, decode (joinBytes (s.readMem s.pc.toNat) (s.readMem (s.pc.toNat + 1))) = .error e)
    ∧ (t.faultCause = 2 ↔ s.sp = 16 ∧ ∃ nnn, s.fetchDecode = .ok (.call nnn))
    ∧ (t.faultCause = 3 ↔ s.sp = 0 ∧ s.fetchDecode = .ok .ret)
    ∧ (t.faultCause = 5 ↔
        (∃ x y n : Nibble, s.fetchDecode = .ok (.drw x y n) ∧ 1 ≤ n.val ∧ 0xFFF < s.i.toNat + n.val - 1)
        ∨ (∃ x, s.fetchDecode = .ok (.ldBcd x) ∧ 0xFFF < s.i.toNat + 2)
        ∨ ∃ x : Nibble, (s.fetchDecode = .ok (.storeRegs x) ∨ s.fetchDecode = .ok (.loadRegs x)) ∧ 0xFFF < s.i.toNat + x.val)
    ∧ (t.faultCause = 6 ↔ ∃ x, (s.fetchDecode = .ok (.skp x) ∨ s.fetchDecode = .ok (.sknp x)) ∧ 15 < (s.getV x).toNat)
    ∧ t.faultCause ≠ 7

/-- The state after reset meets the invariant. -/
def Obligations.ResetMeetsTheInvariant : Prop := State.reset.Inv ∧ ∀ s : State, s.resetEvent.Inv

/-- R23 (`pc` never exceeds `0x10FE`), R25 (`0 <= stack_pointer <= 16`), R100 (a pushed address is at most 4094), R161 (code 7 is never produced), the canonical
form of memory (log 8): every step of the machine, whatever event it takes, keeps them all. -/
def Obligations.EveryStepKeepsTheInvariant : Prop := ∀ s t : State, s.Inv → step s = .next t → t.Inv

/-- R40 with R6 and R7: a STEP "always terminates; never suspends", and so does every event: from a state of the invariant every schedule, of any
length, runs to its end without a stop, and the invariant holds there. -/
def Obligations.EveryScheduleRunsToItsEnd : Prop :=
  ∀ (events : List Event) (s : State), s.Inv → ∃ t, runEvents events s = .next t ∧ t.Inv

/-- The column "written by" of R32, over all 34 instructions: a piece of state that an instruction may change is one the table lets it write. Memory
is read cell by cell. -/
def Obligations.OnlyTheListedWritersWrite : Prop :=
  ∀ (i : Instr) (s t : State), exec i s = .next t →
    ((∀ x, i ≠ .ldBcd x) → (∀ x, i ≠ .storeRegs x) → sameMemory s t)
    ∧ (i ≠ .cls → (∀ x y n, i ≠ .drw x y n) → t.fb = s.fb)
    ∧ ((∀ nnn, i ≠ .call nnn) → t.stack = s.stack)
    ∧ ((∀ nnn, i ≠ .call nnn) → i ≠ .ret → t.sp = s.sp)
    ∧ ((∀ x, i ≠ .ldDtVx x) → t.dt = s.dt)
    ∧ ((∀ x, i ≠ .ldStVx x) → t.st = s.st)
    ∧ ((∀ nnn, i ≠ .ldI nnn) → (∀ x, i ≠ .addI x) → (∀ x, i ≠ .ldFont x) → t.i = s.i)
    ∧ (∀ r : Nibble, hasDestination i r = false → (writesFlag i = true → r ≠ 15) → t.getV r = s.getV r)
    ∧ t.keys = s.keys ∧ t.font = s.font ∧ t.rnd = s.rnd ∧ t.draws = s.draws ∧ t.hostEvents = s.hostEvents

/-- R21: an instruction that writes `V[15]` as a flag leaves 0 or 1 there, unless `V[15]` is its own destination or it raises a fault. -/
def Obligations.FlagsAreZeroOrOne : Prop :=
  ∀ (i : Instr) (s t : State), writesFlag i = true → hasDestination i 15 = false → s.faultCause = 0 → exec i s = .next t → t.faultCause = 0 →
    t.getV 15 = 0 ∨ t.getV 15 = 1

/-- R72: `pc` after each instruction, by its kind; one that faults does not update it. -/
def Obligations.EveryInstructionUpdatesPcByItsKind : Prop :=
  ∀ (i : Instr) (s t : State), s.faultCause = 0 → exec i s = .next t →
    (t.faultCause = 0 → pcRule i s t.pc) ∧ (t.faultCause ≠ 0 → t.pc = s.pc)

/-- R37: the core ignores `rnd` unless the instruction is `Cxkk`. -/
def Obligations.OnlyRndReadsTheRandomInput : Prop :=
  ∀ (i : Instr) (s t : State) (r : Byte), (∀ x kk, i ≠ .rnd x kk) → exec i s = .next t →
    exec i { s with rnd := r } = .next { t with rnd := r }

/-- `00E0`, R140. -/
def Obligations.ClsClearsThePixels : Prop :=
  decodesTo 0xFFFF 0x00E0 (fun _ => .cls)
  ∧ ∀ s : State, ∃ t, exec .cls s = .next t ∧ (∀ k : Fin 2048, pixelAt t.fb k = false)
      ∧ t = { s with fb := t.fb, pc := s.pc + 2 } ∧ sameMemory s t

/-- `Dxyn`, R141 to R144 (the range check and the order of the reads are the spec's own decisions D8 and D11): in range, or with no row to draw, each pixel is
flipped exactly when a 1 bit of the sprite falls on it, and `V[15]` is 1 exactly when one that was set is flipped; out of range it raises
`MemAddressOutOfRange`. -/
def Obligations.DrwXorsTheSpriteAndReportsCollision : Prop :=
  decodesTo 0xF000 0xD000 (fun w => .drw (fieldX w) (fieldY w) (fieldN w))
  ∧ ∀ (x y n : Nibble) (s : State),
    (n.val = 0 ∨ s.i.toNat + n.val - 1 ≤ 0xFFF →
      ∃ t, exec (.drw x y n) s = .next t ∧ onlyVFbPc s t ∧ t.pc = s.pc + 2 ∧ otherVSame 15 s t
        ∧ (∀ (px : Fin 64) (py : Fin 32),
            (s.spriteCovers x y n px py → pixel t.fb px py = !pixel s.fb px py)
            ∧ (¬ s.spriteCovers x y n px py → pixel t.fb px py = pixel s.fb px py))
        ∧ ((∃ px py, s.spriteCovers x y n px py ∧ pixel s.fb px py = true) → t.getV 15 = 1)
        ∧ ((∀ px py, s.spriteCovers x y n px py → pixel s.fb px py = false) → t.getV 15 = 0))
    ∧ (1 ≤ n.val → 0xFFF < s.i.toNat + n.val - 1 → exec (.drw x y n) s = .next { s with faultCause := 5 })

/-- R143 (the spec's own inference from R141): drawing a sprite twice at the same place restores the framebuffer, and from a clear framebuffer the second draw of
a sprite with a 1 bit collides where the first did not. The state of the second draw may differ from the first one's result in all but the sprite's
inputs and the framebuffer. -/
def Obligations.DrawingTwiceRestoresTheFramebuffer : Prop :=
  ∀ (x y n : Nibble) (s t s' t' : State), (n.val = 0 ∨ s.i.toNat + n.val - 1 ≤ 0xFFF) → exec (.drw x y n) s = .next t →
    s'.fb = t.fb → s'.i = s.i → sameMemory s s' → s'.getV x = s.getV x → s'.getV y = s.getV y → exec (.drw x y n) s' = .next t' →
    t'.fb = s.fb
    ∧ ((∀ px py, pixel s.fb px py = false) → (∃ px py, s.spriteCovers x y n px py) → t.getV 15 = 0 ∧ t'.getV 15 = 1)

/-- `00EE`, R100 (the fault is the spec's own decision D6). The premise on `stack_pointer` is R25's invariant. -/
def Obligations.RetGoesPastTheCall : Prop :=
  decodesTo 0xFFFF 0x00EE (fun _ => .ret)
  ∧ (∀ (s : State) (k : Fin 16), s.sp.toNat = k.val + 1 →
      ∃ t, exec .ret s = .next t ∧ t.sp.toNat = k.val ∧ t.pc = s.stack[k] + 2 ∧ t.stack = s.stack ∧ onlyStackPc s t)
  ∧ ∀ s : State, s.sp = 0 → exec .ret s = .next { s with faultCause := 3 }

/-- `2nnn`, R102 (the fault is the spec's own decision D6). The premise on `stack_pointer` is R25's invariant. -/
def Obligations.CallPushesItsOwnAddress : Prop :=
  decodesTo 0xF000 0x2000 (fun w => .call (fieldNnn w))
  ∧ (∀ (nnn : BitVec 12) (s : State) (k : Fin 16), s.sp.toNat = k.val →
      ∃ t, exec (.call nnn) s = .next t ∧ t.stack[k] = s.pc ∧ (∀ j : Fin 16, j ≠ k → t.stack[j] = s.stack[j])
        ∧ t.sp.toNat = k.val + 1 ∧ t.pc.toNat = nnn.toNat ∧ onlyStackPc s t)
  ∧ ∀ (nnn : BitVec 12) (s : State), s.sp = 16 → exec (.call nnn) s = .next { s with faultCause := 2 }

/-- R109 (the spec's own inference from R100 and R102): a return with the entry of a call untouched goes to the instruction after the call and gives the
pointer its value before it. -/
def Obligations.ReturnUndoesTheCall : Prop :=
  ∀ (nnn : BitVec 12) (s t u : State) (k : Fin 16), s.sp.toNat = k.val → exec (.call nnn) s = .next t → u.sp = t.sp → u.stack[k] = t.stack[k] →
    ∃ w, exec .ret u = .next w ∧ w.pc = s.pc + 2 ∧ w.sp = s.sp

/-- A pointer of 17 to 31, which R25 says never occurs, has no entry to push to or pop from: the model's choice is to stop (log 6). -/
def Obligations.AnImpossibleStackPointerStops : Prop :=
  ∀ (nnn : BitVec 12) (s : State), 16 < s.sp.toNat →
    exec (.call nnn) s = .fault .stackPointerIllegal ∧ exec .ret s = .fault .stackPointerIllegal

/-- `1nnn`, R101, and `Bnnn`, R107: no check, no reduction to 12 bits, no flag. -/
def Obligations.JumpsSetPc : Prop :=
  decodesTo 0xF000 0x1000 (fun w => .jp (fieldNnn w)) ∧ decodesTo 0xF000 0xB000 (fun w => .jpV0 (fieldNnn w))
  ∧ ∀ (nnn : BitVec 12) (s : State),
    (∃ t, exec (.jp nnn) s = .next t ∧ t.pc.toNat = nnn.toNat ∧ onlyPc s t)
    ∧ ∃ t, exec (.jpV0 nnn) s = .next t ∧ t.pc.toNat = nnn.toNat + (s.getV 0).toNat ∧ onlyPc s t

/-- `3xkk`, R103, and `4xkk`, R104: for every state exactly one of them skips. -/
def Obligations.SkipsOnAnImmediate : Prop :=
  decodesTo 0xF000 0x3000 (fun w => .seImm (fieldX w) (fieldKk w)) ∧ decodesTo 0xF000 0x4000 (fun w => .sneImm (fieldX w) (fieldKk w))
  ∧ ∀ (x : Nibble) (kk : Byte) (s : State), ∃ t u,
      exec (.seImm x kk) s = .next t ∧ onlyPc s t ∧ exec (.sneImm x kk) s = .next u ∧ onlyPc s u
      ∧ ((s.getV x).toNat = kk.toNat → t.pc = s.pc + 4 ∧ u.pc = s.pc + 2)
      ∧ ((s.getV x).toNat ≠ kk.toNat → t.pc = s.pc + 2 ∧ u.pc = s.pc + 4)

/-- `5xy0`, R105, and `9xy0`, R106. -/
def Obligations.SkipsOnTwoRegisters : Prop :=
  decodesTo 0xF00F 0x5000 (fun w => .seReg (fieldX w) (fieldY w)) ∧ decodesTo 0xF00F 0x9000 (fun w => .sneReg (fieldX w) (fieldY w))
  ∧ ∀ (x y : Nibble) (s : State), ∃ t u,
      exec (.seReg x y) s = .next t ∧ onlyPc s t ∧ exec (.sneReg x y) s = .next u ∧ onlyPc s u
      ∧ ((s.getV x).toNat = (s.getV y).toNat → t.pc = s.pc + 4 ∧ u.pc = s.pc + 2)
      ∧ ((s.getV x).toNat ≠ (s.getV y).toNat → t.pc = s.pc + 2 ∧ u.pc = s.pc + 4)

/-- `Ex9E`, R150, and `ExA1`, R151: the key whose number is in `V[x]`, at its level now (R29); a larger number raises `KeyIndexOutOfRange` (the spec's own
decision D9). -/
def Obligations.SkipsOnAKey : Prop :=
  decodesTo 0xF0FF 0xE09E (fun w => .skp (fieldX w)) ∧ decodesTo 0xF0FF 0xE0A1 (fun w => .sknp (fieldX w))
  ∧ ∀ (x : Nibble) (s : State),
    (∀ k : Nibble, (s.getV x).toNat = k.val → ∃ t u,
      exec (.skp x) s = .next t ∧ onlyPc s t ∧ exec (.sknp x) s = .next u ∧ onlyPc s u
      ∧ (s.key k = true → t.pc = s.pc + 4 ∧ u.pc = s.pc + 2) ∧ (s.key k = false → t.pc = s.pc + 2 ∧ u.pc = s.pc + 4))
    ∧ (15 < (s.getV x).toNat →
      exec (.skp x) s = .next { s with faultCause := 6 } ∧ exec (.sknp x) s = .next { s with faultCause := 6 })

/-- `Fx0A`, R152: the least pressed key, at once; with none pressed no state changes at all. -/
def Obligations.KeyWaitTakesTheLeastKey : Prop :=
  decodesTo 0xF0FF 0xF00A (fun w => .ldVxKey (fieldX w))
  ∧ ∀ (x : Nibble) (s : State),
    (∀ k : Nibble, s.key k = true → (∀ j : Nibble, j < k → s.key j = false) →
      ∃ t, exec (.ldVxKey x) s = .next t ∧ (t.getV x).toNat = k.val ∧ otherVSame x s t ∧ t.pc = s.pc + 2 ∧ onlyVPc s t)
    ∧ ((∀ k : Nibble, s.key k = false) → exec (.ldVxKey x) s = .next s)

/-- `Fx07`, R153, `Fx15`, R154, `Fx18`, R155. -/
def Obligations.TimersAreReadAndSet : Prop :=
  decodesTo 0xF0FF 0xF007 (fun w => .ldVxDt (fieldX w)) ∧ decodesTo 0xF0FF 0xF015 (fun w => .ldDtVx (fieldX w))
  ∧ decodesTo 0xF0FF 0xF018 (fun w => .ldStVx (fieldX w))
  ∧ ∀ (x : Nibble) (s : State),
    (∃ t, exec (.ldVxDt x) s = .next t ∧ t.getV x = s.dt ∧ otherVSame x s t ∧ t.pc = s.pc + 2 ∧ onlyVPc s t)
    ∧ (∃ t, exec (.ldDtVx x) s = .next t ∧ t = { s with dt := s.getV x, pc := s.pc + 2 } ∧ sameMemory s t)
    ∧ ∃ t, exec (.ldStVx x) s = .next t ∧ t = { s with st := s.getV x, pc := s.pc + 2 } ∧ sameMemory s t

/-- `6xkk`, R112, for every register, 15 included. -/
def Obligations.LoadImmediateWritesVx : Prop :=
  decodesTo 0xF000 0x6000 (fun w => .ldImm (fieldX w) (fieldKk w))
  ∧ ∀ (x : Nibble) (kk : Byte) (s : State), ∃ t, exec (.ldImm x kk) s = .next t ∧ t.getV x = kk
      ∧ otherVSame x s t ∧ t.pc = s.pc + 2 ∧ onlyVPc s t

/-- `7xkk`, R113: wraps modulo 256 and writes no flag; the source's property of `6xkk` then `7xkk`. -/
def Obligations.AddImmediateWrapsWithoutAFlag : Prop :=
  decodesTo 0xF000 0x7000 (fun w => .addImm (fieldX w) (fieldKk w))
  ∧ (∀ (x : Nibble) (kk : Byte) (s : State), ∃ t, exec (.addImm x kk) s = .next t
      ∧ (t.getV x).toNat = ((s.getV x).toNat + kk.toNat) % 256 ∧ otherVSame x s t ∧ t.pc = s.pc + 2 ∧ onlyVPc s t)
  ∧ ∀ (x : Nibble) (a b : Byte) (s t u : State), exec (.ldImm x a) s = .next t → exec (.addImm x b) t = .next u →
      (u.getV x).toNat = (a.toNat + b.toNat) % 256

/-- `8xy0`, R114, `8xy1`, R115, `8xy2`, R116, `8xy3`, R117: bit by bit, with no flag, `x = y` and 15 included. -/
def Obligations.CopyAndLogicWithoutAFlag : Prop :=
  decodesTo 0xF00F 0x8000 (fun w => .ldReg (fieldX w) (fieldY w)) ∧ decodesTo 0xF00F 0x8001 (fun w => .orReg (fieldX w) (fieldY w))
  ∧ decodesTo 0xF00F 0x8002 (fun w => .andReg (fieldX w) (fieldY w)) ∧ decodesTo 0xF00F 0x8003 (fun w => .xorReg (fieldX w) (fieldY w))
  ∧ ∀ (x y : Nibble) (s : State),
    (∃ t, exec (.ldReg x y) s = .next t ∧ t.getV x = s.getV y ∧ otherVSame x s t ∧ t.pc = s.pc + 2 ∧ onlyVPc s t)
    ∧ (∃ t, exec (.orReg x y) s = .next t
        ∧ (∀ k, k < 8 → (t.getV x).getLsbD k = ((s.getV x).getLsbD k || (s.getV y).getLsbD k))
        ∧ otherVSame x s t ∧ t.pc = s.pc + 2 ∧ onlyVPc s t)
    ∧ (∃ t, exec (.andReg x y) s = .next t
        ∧ (∀ k, k < 8 → (t.getV x).getLsbD k = ((s.getV x).getLsbD k && (s.getV y).getLsbD k))
        ∧ otherVSame x s t ∧ t.pc = s.pc + 2 ∧ onlyVPc s t)
    ∧ ∃ t, exec (.xorReg x y) s = .next t
        ∧ (∀ k, k < 8 → (t.getV x).getLsbD k = xor ((s.getV x).getLsbD k) ((s.getV y).getLsbD k))
        ∧ otherVSame x s t ∧ t.pc = s.pc + 2 ∧ onlyVPc s t

/-- `8xy4`, R118; that the result is written after the carry, so that it wins when `x = 15`, is the spec's own decision D10. -/
def Obligations.AddRegistersWithCarry : Prop :=
  decodesTo 0xF00F 0x8004 (fun w => .addReg (fieldX w) (fieldY w))
  ∧ ∀ (x y : Nibble) (s : State), ∃ t, exec (.addReg x y) s = .next t
      ∧ (t.getV x).toNat = ((s.getV x).toNat + (s.getV y).toNat) % 256
      ∧ (x ≠ 15 → (t.getV 15).toNat = ((s.getV x).toNat + (s.getV y).toNat) / 256)
      ∧ (∀ r, r ≠ x → r ≠ 15 → t.getV r = s.getV r) ∧ t.pc = s.pc + 2 ∧ onlyVPc s t

/-- `8xy5`, R119, every case of its table; those with `x` or `y` = 15 rest on the spec's own decision D10. -/
def Obligations.SubtractWithGreaterFlag : Prop :=
  decodesTo 0xF00F 0x8005 (fun w => .subReg (fieldX w) (fieldY w))
  ∧ ∀ (x y : Nibble) (s : State),
    let a := (s.getV x).toNat; let b := (s.getV y).toNat; let f := if a > b then 1 else 0
    ∃ t, exec (.subReg x y) s = .next t
      ∧ (x ≠ 15 → y ≠ 15 → (t.getV x).toNat = (a + 256 - b) % 256 ∧ (t.getV 15).toNat = f)
      ∧ (x = 15 → y ≠ 15 → (t.getV 15).toNat = (f + 256 - b) % 256)
      ∧ (x ≠ 15 → y = 15 → (t.getV x).toNat = (a + 256 - f) % 256 ∧ (t.getV 15).toNat = f)
      ∧ (x = 15 → y = 15 → (t.getV 15).toNat = 0)
      ∧ (∀ r, r ≠ x → r ≠ 15 → t.getV r = s.getV r) ∧ t.pc = s.pc + 2 ∧ onlyVPc s t

/-- `8xy7`, R121, every case of its table; those with `x` or `y` = 15 rest on the spec's own decision D10. -/
def Obligations.SubtractReversedWithGreaterFlag : Prop :=
  decodesTo 0xF00F 0x8007 (fun w => .subn (fieldX w) (fieldY w))
  ∧ ∀ (x y : Nibble) (s : State),
    let a := (s.getV x).toNat; let b := (s.getV y).toNat; let f := if b > a then 1 else 0
    ∃ t, exec (.subn x y) s = .next t
      ∧ (x ≠ 15 → y ≠ 15 → (t.getV x).toNat = (b + 256 - a) % 256 ∧ (t.getV 15).toNat = f)
      ∧ (x = 15 → y ≠ 15 → (t.getV 15).toNat = (b + 256 - f) % 256)
      ∧ (x ≠ 15 → y = 15 → (t.getV x).toNat = (f + 256 - a) % 256 ∧ (t.getV 15).toNat = f)
      ∧ (x = 15 → y = 15 → (t.getV 15).toNat = 0)
      ∧ (∀ r, r ≠ x → r ≠ 15 → t.getV r = s.getV r) ∧ t.pc = s.pc + 2 ∧ onlyVPc s t

/-- `8xy6`, R120, and `8xyE`, R122, whatever the field `y`; the cases with `x` = 15 rest on the spec's own decision D10. -/
def Obligations.ShiftsByOneIgnoringVy : Prop :=
  decodesTo 0xF00F 0x8006 (fun w => .shr (fieldX w) (fieldY w)) ∧ decodesTo 0xF00F 0x800E (fun w => .shl (fieldX w) (fieldY w))
  ∧ ∀ (x y : Nibble) (s : State),
    let a := (s.getV x).toNat
    (∃ t, exec (.shr x y) s = .next t
      ∧ (x ≠ 15 → (t.getV x).toNat = a / 2 ∧ (t.getV 15).toNat = a % 2) ∧ (x = 15 → (t.getV 15).toNat = 0)
      ∧ (∀ r, r ≠ x → r ≠ 15 → t.getV r = s.getV r) ∧ t.pc = s.pc + 2 ∧ onlyVPc s t)
    ∧ ∃ t, exec (.shl x y) s = .next t
      ∧ (x ≠ 15 → (t.getV x).toNat = 2 * a % 256 ∧ (t.getV 15).toNat = a / 128)
      ∧ (x = 15 → (t.getV 15).toNat = if a ≥ 128 then 2 else 0)
      ∧ (∀ r, r ≠ x → r ≠ 15 → t.getV r = s.getV r) ∧ t.pc = s.pc + 2 ∧ onlyVPc s t

/-- `Cxkk`, R123: bit by bit the STEP's random input where `kk` has a 1, else 0. -/
def Obligations.RndMasksTheRandomInput : Prop :=
  decodesTo 0xF000 0xC000 (fun w => .rnd (fieldX w) (fieldKk w))
  ∧ ∀ (x : Nibble) (kk : Byte) (s : State), ∃ t, exec (.rnd x kk) s = .next t
      ∧ (∀ k, k < 8 → (t.getV x).getLsbD k = (kk.getLsbD k && s.rnd.getLsbD k))
      ∧ otherVSame x s t ∧ t.pc = s.pc + 2 ∧ onlyVPc s t

/-- `Annn`, R130, and `Fx29`, R132: all 8 bits of `V[x]`, unmasked. -/
def Obligations.LoadsOfTheIndexRegister : Prop :=
  decodesTo 0xF000 0xA000 (fun w => .ldI (fieldNnn w)) ∧ decodesTo 0xF0FF 0xF029 (fun w => .ldFont (fieldX w))
  ∧ (∀ (nnn : BitVec 12) (s : State), ∃ t, exec (.ldI nnn) s = .next t ∧ t.i.toNat = nnn.toNat ∧ t.pc = s.pc + 2 ∧ onlyIPc s t)
  ∧ ∀ (x : Nibble) (s : State), ∃ t, exec (.ldFont x) s = .next t ∧ t.i.toNat = (s.getV x).toNat * 5 ∧ t.pc = s.pc + 2 ∧ onlyIPc s t

/-- `Fx1E`, R131: the flag on the true sum (the spec's own decision D23), the sum modulo 65536; with `x = 15` the addend is the new flag (the spec's own
decision D10). -/
def Obligations.AddToIndexWithOverflowFlag : Prop :=
  decodesTo 0xF0FF 0xF01E (fun w => .addI (fieldX w))
  ∧ ∀ (x : Nibble) (s : State),
    let f := if s.i.toNat + (s.getV x).toNat > 0xFFF then 1 else 0
    ∃ t, exec (.addI x) s = .next t ∧ (t.getV 15).toNat = f
      ∧ (x ≠ 15 → t.i.toNat = (s.i.toNat + (s.getV x).toNat) % 65536) ∧ (x = 15 → t.i.toNat = (s.i.toNat + f) % 65536)
      ∧ otherVSame 15 s t ∧ t.pc = s.pc + 2 ∧ onlyVIPc s t

/-- `Fx33`, R133 (the fault is the spec's own decision D8): hundreds, tens, ones at `I`, `I+1`, `I+2`, every other cell as before. -/
def Obligations.BcdStoresThreeDigits : Prop :=
  decodesTo 0xF0FF 0xF033 (fun w => .ldBcd (fieldX w))
  ∧ ∀ (x : Nibble) (s : State),
    (s.i.toNat + 2 ≤ 0xFFF → ∃ t, exec (.ldBcd x) s = .next t
      ∧ (t.readMem s.i.toNat).toNat = (s.getV x).toNat / 100
      ∧ (t.readMem (s.i.toNat + 1)).toNat = (s.getV x).toNat / 10 % 10
      ∧ (t.readMem (s.i.toNat + 2)).toNat = (s.getV x).toNat % 10
      ∧ (∀ a, a < s.i.toNat ∨ s.i.toNat + 2 < a → t.readMem a = s.readMem a) ∧ t.pc = s.pc + 2 ∧ onlyMemoryPc s t)
    ∧ (0xFFF < s.i.toNat + 2 → exec (.ldBcd x) s = .next { s with faultCause := 5 })

/-- `Fx55`, R134 (the fault is the spec's own decision D8): `V[k]` at `I + k` for `k` from 0 to `x`, both included, every other cell as before. -/
def Obligations.StoreRegistersFillsTheCells : Prop :=
  decodesTo 0xF0FF 0xF055 (fun w => .storeRegs (fieldX w))
  ∧ ∀ (x : Nibble) (s : State),
    (s.i.toNat + x.val ≤ 0xFFF → ∃ t, exec (.storeRegs x) s = .next t
      ∧ (∀ k : Nibble, k ≤ x → t.readMem (s.i.toNat + k.val) = s.getV k)
      ∧ (∀ a, a < s.i.toNat ∨ s.i.toNat + x.val < a → t.readMem a = s.readMem a) ∧ t.pc = s.pc + 2 ∧ onlyMemoryPc s t)
    ∧ (0xFFF < s.i.toNat + x.val → exec (.storeRegs x) s = .next { s with faultCause := 5 })

/-- `Fx65`, R135 (the fault is the spec's own decision D8): `V[k]` from `I + k` for `k` from 0 to `x`, both included, the registers above `x` as before. -/
def Obligations.LoadRegistersReadsTheCells : Prop :=
  decodesTo 0xF0FF 0xF065 (fun w => .loadRegs (fieldX w))
  ∧ ∀ (x : Nibble) (s : State),
    (s.i.toNat + x.val ≤ 0xFFF → ∃ t, exec (.loadRegs x) s = .next t
      ∧ (∀ k : Nibble, k ≤ x → t.getV k = s.readMem (s.i.toNat + k.val))
      ∧ (∀ k : Nibble, x < k → t.getV k = s.getV k) ∧ t.pc = s.pc + 2 ∧ onlyVPc s t)
    ∧ (0xFFF < s.i.toNat + x.val → exec (.loadRegs x) s = .next { s with faultCause := 5 })

/-- R63 with R54 (R63 is the spec's own inference): when the next instruction lies in the cells that `Fx55` stored, the next fetch reads the stored
registers, the lower one as the high byte. -/
def Obligations.AStoreIsSeenByTheNextFetch : Prop :=
  ∀ (x k k' : Nibble) (s t : State), s.i.toNat + x.val ≤ 0xFFF → exec (.storeRegs x) s = .next t →
    k'.val = k.val + 1 → k' ≤ x → t.pc.toNat = s.i.toNat + k.val →
    t.fetch = .ok (joinBytes (s.getV k) (s.getV k'))

/-- TICK, R180 (that a faulted core ignores it is the spec's own decision D16): each timer one down, never below 0, and nothing else; after `n` of them a timer
that held `v` holds `v - n`, or 0. -/
def Obligations.TickCountsBothTimersDown : Prop :=
  (∀ s : State, s.faultCause = 0 → ∃ t, s.event .tick = .next t
    ∧ t.dt.toNat = s.dt.toNat - 1 ∧ t.st.toNat = s.st.toNat - 1 ∧ t = { s with dt := t.dt, st := t.st })
  ∧ (∀ s : State, s.faultCause ≠ 0 → s.event .tick = .next s)
  ∧ ∀ (n : Nat) (s : State), s.faultCause = 0 → ∃ t, runEvents (List.replicate n .tick) s = .next t
      ∧ t.dt.toNat = s.dt.toNat - n ∧ t.st.toNat = s.st.toNat - n

/-- RESET, R190 and the Reset column of R32 (that `keys` are kept and `fault_cause` is cleared are the spec's own decisions D13 and D2; that the four
fields of the model's own are kept is the model's choice, logs 1, 3, 4). The same values hold in the state the machine starts from. -/
def Obligations.ResetLeavesTheResetValues : Prop :=
  (∀ s : State, ∃ t, s.event .reset = .next t
    ∧ t.keys = s.keys ∧ t.font = s.font ∧ t.rnd = s.rnd ∧ t.draws = s.draws ∧ t.hostEvents = s.hostEvents)
  ∧ ∀ t : State, (t = State.reset ∨ ∃ s : State, s.event .reset = .next t) →
      (∀ r, t.getV r = 0) ∧ t.i = 0 ∧ t.pc = 0x200 ∧ t.sp = 0 ∧ (∀ k : Fin 16, t.stack[k] = 0) ∧ t.dt = 0 ∧ t.st = 0
      ∧ (∀ a : Fin 80, t.readMem a.val = t.font[a]) ∧ (∀ a, 80 ≤ a → t.readMem a = 0)
      ∧ (∀ k : Fin 2048, pixelAt t.fb k = false) ∧ t.faultCause = 0

/-- R191: RESET is idempotent, and what it leaves depends on nothing before it but `keys` and the model's own fields (logs 1, 3, 4). -/
def Obligations.ResetForgetsTheRunBefore : Prop :=
  (∀ s : State, s.resetEvent.resetEvent = s.resetEvent)
  ∧ ∀ s t : State, t.keys = s.keys → t.font = s.font → t.rnd = s.rnd → t.draws = s.draws → t.hostEvents = s.hostEvents →
      t.resetEvent = s.resetEvent

/-- LOAD, R192 and R193 (that a faulted core ignores it, R194, is in `AFaultedCoreIsFrozenUntilReset`): byte `k` at `0x200 + k` for the first 3584
bytes, every other cell and everything else as before. -/
def Obligations.LoadPlacesTheImageAndTruncates : Prop :=
  ∀ (s : State) (image : List Byte), s.faultCause = 0 → ∃ t, s.event (.load image) = .next t
    ∧ (∀ k, k < image.length → k < 3584 → t.readMem (0x200 + k) = image.getD k 0)
    ∧ (∀ a, a < 0x200 ∨ 0x200 + min image.length 3584 ≤ a → t.readMem a = s.readMem a)
    ∧ t = { s with memory := t.memory }

/-- R40, R29 (that they work while faulted is the spec's own decision D16): KEY writes one key and nothing else, QUERY changes nothing, and no other event
and no instruction changes a key. -/
def Obligations.OnlyKeyEventsWriteKeys : Prop :=
  (∀ (s : State) (k : Nibble) (down : Bool), ∃ t, s.event (.key k down) = .next t ∧ t.key k = down
    ∧ (∀ j, j ≠ k → t.key j = s.key j) ∧ t = { s with keys := t.keys })
  ∧ (∀ s : State, s.event .query = .next s)
  ∧ ∀ (s t : State) (e : Event), (∀ k down, e ≠ .key k down) → s.event e = .next t → t.keys = s.keys

/-- R41, R28 (what QUERY shows beside the pixels is the spec's own decision D24; the shape of the answer is the model's choice, log 14): pixel `x + 64*y` of the
2048 is that of column `x`, row `y`; cell `a` of the 4096 is what a read of `a` gives. -/
def Obligations.QueryShowsPixelsInRowMajorOrder : Prop :=
  ∀ s : State, s.query.framebuffer.length = 2048 ∧ s.query.memory.length = 4096
    ∧ (∀ (x : Fin 64) (y : Fin 32), s.query.framebuffer[x.val + 64 * y.val]? = some (pixel s.fb x y))
    ∧ (∀ a : Fin 4096, s.query.memory[a.val]? = some (s.readMem a.val)) ∧ s.query.faultCause = s.faultCause

/-- R202 (the spec's own inference): a STEP's instruction and TICK commute unless it reads or sets a timer or raises a fault; KEY and TICK always do. -/
def Obligations.TickCommutesWithOtherWork : Prop :=
  (∀ (i : Instr) (s t : State), (∀ x, i ≠ .ldVxDt x) → (∀ x, i ≠ .ldDtVx x) → (∀ x, i ≠ .ldStVx x) →
    s.faultCause = 0 → exec i s = .next t → t.faultCause = 0 → exec i s.tickEvent = .next t.tickEvent)
  ∧ ∀ (s : State) (k : Nibble) (down : Bool), s.tickEvent.keyEvent k down = (s.keyEvent k down).tickEvent

/-- R205 (the spec's own inference; `HALT_PRED` is its suggestion, log 17): at a jump to itself every further STEP leaves the core state unchanged, TICK
changes only the timers and KEY only the keys, and the program stays at its end. -/
def Obligations.ASelfJumpStaysAtItsEnd : Prop :=
  ∀ s : State, s.halted →
    (∀ r, s.event (.step r) = .next { s with rnd := r })
    ∧ ∀ (e : Event) (t : State), e ≠ .reset → (∀ image, e ≠ .load image) → s.event e = .next t →
        t.halted ∧ t = { s with rnd := t.rnd, dt := t.dt, st := t.st, keys := t.keys }
end

