-- ==== Sys2Proof/Laws/Decode.lean ====
section
/-! SUPPORT. The fields of the words that the formats build, as numbers, so that what is left of a claim about encodings is arithmetic. -/

namespace Sys2Proof

variable (w : Word)

theorem fieldOp_toNat : (fieldOp w).toNat = w.toNat / 4096 := by
  simp only [fieldOp, BitVec.extractLsb'_toNat, Nat.shiftRight_eq_div_pow]; omega

theorem fieldX_val : (fieldX w).val = w.toNat / 256 % 16 := by
  simp [fieldX, Nat.shiftRight_eq_div_pow]

theorem fieldY_val : (fieldY w).val = w.toNat / 16 % 16 := by
  simp [fieldY, Nat.shiftRight_eq_div_pow]

theorem fieldN_val : (fieldN w).val = w.toNat % 16 := by
  simp [fieldN]

theorem fieldKk_toNat : (fieldKk w).toNat = w.toNat % 256 := by
  simp [fieldKk, BitVec.extractLsb'_toNat]

theorem fieldNnn_toNat : (fieldNnn w).toNat = w.toNat % 4096 := by
  simp [fieldNnn, BitVec.extractLsb'_toNat]

theorem firstByte_toNat : (firstByte w).toNat = w.toNat / 256 := by
  simp only [firstByte, BitVec.extractLsb'_toNat, Nat.shiftRight_eq_div_pow]; omega

theorem secondByte_toNat : (secondByte w).toNat = w.toNat % 256 := by
  simp [secondByte, BitVec.extractLsb'_toNat]

theorem append_toNat {m n : Nat} (a : BitVec m) (b : BitVec n) : (a ++ b).toNat = a.toNat * 2 ^ n + b.toNat := by
  rw [BitVec.toNat_append, Nat.shiftLeft_eq, ← Nat.shiftLeft_eq, Nat.shiftLeft_add_eq_or_of_lt b.isLt]

theorem joinBytes_toNat (a b : Byte) : (joinBytes a b).toNat = a.toNat * 256 + b.toNat := append_toNat a b

theorem nibbleBits_toNat (x : Nibble) : (nibbleBits x).toNat = x.val := rfl

theorem wordNnn_toNat (op : BitVec 4) (nnn : BitVec 12) : (wordNnn op nnn).toNat = op.toNat * 4096 + nnn.toNat :=
  append_toNat op nnn

theorem wordXkk_toNat (op : BitVec 4) (x : Nibble) (kk : Byte) :
    (wordXkk op x kk).toNat = op.toNat * 4096 + x.val * 256 + kk.toNat := by
  unfold wordXkk; rw [append_toNat, append_toNat, nibbleBits_toNat]; omega

theorem wordXyn_toNat (op : BitVec 4) (x y n : Nibble) :
    (wordXyn op x y n).toNat = op.toNat * 4096 + x.val * 256 + y.val * 16 + n.val := by
  unfold wordXyn; rw [append_toNat, append_toNat, append_toNat]; simp only [nibbleBits_toNat]; omega

/-- A word is its two bytes in memory order (R53). -/
@[simp] theorem joinBytes_firstByte_secondByte : joinBytes (firstByte w) (secondByte w) = w := by
  apply BitVec.eq_of_toNat_eq; rw [joinBytes_toNat, firstByte_toNat, secondByte_toNat]; omega

section Formats

variable (op : BitVec 4) (nnn : BitVec 12) (x y n : Nibble) (kk : Byte)

@[simp] theorem fieldOp_wordNnn : fieldOp (wordNnn op nnn) = op := by
  apply BitVec.eq_of_toNat_eq; rw [fieldOp_toNat, wordNnn_toNat]; omega

@[simp] theorem fieldNnn_wordNnn : fieldNnn (wordNnn op nnn) = nnn := by
  apply BitVec.eq_of_toNat_eq; rw [fieldNnn_toNat, wordNnn_toNat]; omega

@[simp] theorem fieldOp_wordXkk : fieldOp (wordXkk op x kk) = op := by
  apply BitVec.eq_of_toNat_eq; rw [fieldOp_toNat, wordXkk_toNat]; omega

@[simp] theorem fieldX_wordXkk : fieldX (wordXkk op x kk) = x := by
  apply Fin.ext; rw [fieldX_val, wordXkk_toNat]; omega

@[simp] theorem fieldKk_wordXkk : fieldKk (wordXkk op x kk) = kk := by
  apply BitVec.eq_of_toNat_eq; rw [fieldKk_toNat, wordXkk_toNat]; omega

@[simp] theorem fieldOp_wordXyn : fieldOp (wordXyn op x y n) = op := by
  apply BitVec.eq_of_toNat_eq; rw [fieldOp_toNat, wordXyn_toNat]; omega

@[simp] theorem fieldX_wordXyn : fieldX (wordXyn op x y n) = x := by
  apply Fin.ext; rw [fieldX_val, wordXyn_toNat]; omega

@[simp] theorem fieldY_wordXyn : fieldY (wordXyn op x y n) = y := by
  apply Fin.ext; rw [fieldY_val, wordXyn_toNat]; omega

@[simp] theorem fieldN_wordXyn : fieldN (wordXyn op x y n) = n := by
  apply Fin.ext; rw [fieldN_val, wordXyn_toNat]; omega

/-- A word is the one its format builds from its own fields. -/
theorem eq_wordNnn : wordNnn (fieldOp w) (fieldNnn w) = w := by
  apply BitVec.eq_of_toNat_eq; rw [wordNnn_toNat, fieldOp_toNat, fieldNnn_toNat]; omega

theorem eq_wordXkk : wordXkk (fieldOp w) (fieldX w) (fieldKk w) = w := by
  apply BitVec.eq_of_toNat_eq; rw [wordXkk_toNat, fieldOp_toNat, fieldX_val, fieldKk_toNat]; omega

theorem eq_wordXyn : wordXyn (fieldOp w) (fieldX w) (fieldY w) (fieldN w) = w := by
  apply BitVec.eq_of_toNat_eq; rw [wordXyn_toNat, fieldOp_toNat, fieldX_val, fieldY_val, fieldN_val]; omega

end Formats

/-- The bits of the words that the formats build. -/
theorem getLsbD_wordNnn (op : BitVec 4) (nnn : BitVec 12) (i : Nat) :
    (wordNnn op nnn).getLsbD i = if i < 12 then nnn.getLsbD i else op.getLsbD (i - 12) := BitVec.getLsbD_append
theorem getLsbD_wordXkk (op : BitVec 4) (x : Nibble) (kk : Byte) (i : Nat) :
    (wordXkk op x kk).getLsbD i =
      if i < 8 then kk.getLsbD i else if i - 8 < 4 then (nibbleBits x).getLsbD (i - 8) else op.getLsbD (i - 8 - 4) := by
  refine Eq.trans BitVec.getLsbD_append ?_
  rw [BitVec.getLsbD_append]
theorem getLsbD_wordXyn (op : BitVec 4) (x y n : Nibble) (i : Nat) :
    (wordXyn op x y n).getLsbD i =
      if i < 4 then (nibbleBits n).getLsbD i else if i - 4 < 4 then (nibbleBits y).getLsbD (i - 4)
      else if i - 4 - 4 < 4 then (nibbleBits x).getLsbD (i - 4 - 4) else op.getLsbD (i - 4 - 4 - 4) := by
  refine Eq.trans BitVec.getLsbD_append ?_
  rw [BitVec.getLsbD_append, BitVec.getLsbD_append]

theorem and_F000 : w &&& 0xF000 = wordNnn (fieldOp w) 0 := by
  apply BitVec.eq_of_getLsbD_eq; intro i hi
  rw [getLsbD_wordNnn]
  interval_cases i <;> simp [fieldOp]
theorem and_F00F : w &&& 0xF00F = wordXyn (fieldOp w) 0 0 (fieldN w) := by
  apply BitVec.eq_of_getLsbD_eq; intro i hi
  rw [getLsbD_wordXyn]
  have : nibbleBits (fieldN w) = w.extractLsb' 0 4 := rfl
  rw [this]
  interval_cases i <;> simp [fieldOp, nibbleBits]
theorem and_F0FF : w &&& 0xF0FF = wordXkk (fieldOp w) 0 (fieldKk w) := by
  apply BitVec.eq_of_getLsbD_eq; intro i hi
  rw [getLsbD_wordXkk]
  interval_cases i <;> simp [fieldOp, nibbleBits, fieldKk]

theorem wordNnn_inj (op op' : BitVec 4) (a a' : BitVec 12) :
    wordNnn op a = wordNnn op' a' ↔ op = op' ∧ a = a' := by
  constructor
  · intro h; exact ⟨by simpa using congrArg fieldOp h, by simpa using congrArg fieldNnn h⟩
  · rintro ⟨rfl, rfl⟩; rfl
theorem wordXkk_inj (op op' : BitVec 4) (x x' : Nibble) (a a' : Byte) :
    wordXkk op x a = wordXkk op' x' a' ↔ op = op' ∧ x = x' ∧ a = a' := by
  constructor
  · intro h; exact ⟨by simpa using congrArg fieldOp h, by simpa using congrArg fieldX h, by simpa using congrArg fieldKk h⟩
  · rintro ⟨rfl, rfl, rfl⟩; rfl
theorem wordXyn_inj (op op' : BitVec 4) (x x' y y' n n' : Nibble) :
    wordXyn op x y n = wordXyn op' x' y' n' ↔ op = op' ∧ x = x' ∧ y = y' ∧ n = n' := by
  constructor
  · intro h; exact ⟨by simpa using congrArg fieldOp h, by simpa using congrArg fieldX h, by simpa using congrArg fieldY h,
      by simpa using congrArg fieldN h⟩
  · rintro ⟨rfl, rfl, rfl, rfl⟩; rfl

/-- The rows of the opcode map (R78) by the mask they have: what selecting one says of the fields. -/
theorem selects_op (op : BitVec 4) :
    (OpcodeRow.mk 0xF000 (wordNnn op 0)).selects w = true ↔ fieldOp w = op := by
  simp only [OpcodeRow.selects, and_F000, beq_iff_eq, wordNnn_inj]; simp
theorem selects_opN (op : BitVec 4) (n : Nibble) :
    (OpcodeRow.mk 0xF00F (wordXyn op 0 0 n)).selects w = true ↔ fieldOp w = op ∧ fieldN w = n := by
  simp only [OpcodeRow.selects, and_F00F, beq_iff_eq, wordXyn_inj]; simp
theorem selects_opKk (op : BitVec 4) (kk : Byte) :
    (OpcodeRow.mk 0xF0FF (wordXkk op 0 kk)).selects w = true ↔ fieldOp w = op ∧ fieldKk w = kk := by
  simp only [OpcodeRow.selects, and_F0FF, beq_iff_eq, wordXkk_inj]; simp
theorem selects_all (v : Word) : (OpcodeRow.mk 0xFFFF v).selects w = true ↔ w = v := by
  simp only [OpcodeRow.selects, beq_iff_eq]
  rw [show (0xFFFF : Word) = BitVec.allOnes 16 from rfl, BitVec.and_allOnes]

/-- Decoding by category: one lemma per case of R76, so that no later proof unfolds the decoder's match. -/
theorem decode_of_op0 (h : fieldOp w = 0x0) : decode w = decode0 w := by simp [decode, h]
theorem decode_of_op1 (h : fieldOp w = 0x1) : decode w = .ok (.jp (fieldNnn w)) := by simp [decode, h]
theorem decode_of_op2 (h : fieldOp w = 0x2) : decode w = .ok (.call (fieldNnn w)) := by simp [decode, h]
theorem decode_of_op3 (h : fieldOp w = 0x3) : decode w = .ok (.seImm (fieldX w) (fieldKk w)) := by simp [decode, h]
theorem decode_of_op4 (h : fieldOp w = 0x4) : decode w = .ok (.sneImm (fieldX w) (fieldKk w)) := by simp [decode, h]
theorem decode_of_op5 (h : fieldOp w = 0x5) :
    decode w = if fieldN w = 0 then .ok (.seReg (fieldX w) (fieldY w)) else .error .illegal5 := by simp [decode, h]
theorem decode_of_op6 (h : fieldOp w = 0x6) : decode w = .ok (.ldImm (fieldX w) (fieldKk w)) := by simp [decode, h]
theorem decode_of_op7 (h : fieldOp w = 0x7) : decode w = .ok (.addImm (fieldX w) (fieldKk w)) := by simp [decode, h]
theorem decode_of_op8 (h : fieldOp w = 0x8) : decode w = decode8 w := by simp [decode, h]
theorem decode_of_op9 (h : fieldOp w = 0x9) :
    decode w = if fieldN w = 0 then .ok (.sneReg (fieldX w) (fieldY w)) else .error .illegal9 := by simp [decode, h]
theorem decode_of_opA (h : fieldOp w = 0xA) : decode w = .ok (.ldI (fieldNnn w)) := by simp [decode, h]
theorem decode_of_opB (h : fieldOp w = 0xB) : decode w = .ok (.jpV0 (fieldNnn w)) := by simp [decode, h]
theorem decode_of_opC (h : fieldOp w = 0xC) : decode w = .ok (.rnd (fieldX w) (fieldKk w)) := by simp [decode, h]
theorem decode_of_opD (h : fieldOp w = 0xD) : decode w = .ok (.drw (fieldX w) (fieldY w) (fieldN w)) := by simp [decode, h]
theorem decode_of_opE (h : fieldOp w = 0xE) : decode w = decodeE w := by simp [decode, h]
theorem decode_of_opF (h : fieldOp w = 0xF) : decode w = decodeF w := by simp [decode, h]

/-- The sixteen categories (R76). -/
theorem fieldOp_cases (op : BitVec 4) : op = 0x0 ∨ op = 0x1 ∨ op = 0x2 ∨ op = 0x3 ∨ op = 0x4 ∨ op = 0x5 ∨ op = 0x6 ∨ op = 0x7
    ∨ op = 0x8 ∨ op = 0x9 ∨ op = 0xA ∨ op = 0xB ∨ op = 0xC ∨ op = 0xD ∨ op = 0xE ∨ op = 0xF := by
  revert op; decide

end Sys2Proof
end

