-- ==== Sys2Proof/Laws/State.lean ====
section
/-! SUPPORT. One lemma per field per update of the state, so that no later proof unfolds a record update; then the same for the accessors. -/

namespace Sys2Proof.Machine

variable (s : State)

@[simp] theorem State.setV_v (x : Nibble) (b : Byte) : (s.setV x b).v = s.v.set x b := rfl
@[simp] theorem State.setV_i (x : Nibble) (b : Byte) : (s.setV x b).i = s.i := rfl
@[simp] theorem State.setV_pc (x : Nibble) (b : Byte) : (s.setV x b).pc = s.pc := rfl
@[simp] theorem State.setV_stack (x : Nibble) (b : Byte) : (s.setV x b).stack = s.stack := rfl
@[simp] theorem State.setV_sp (x : Nibble) (b : Byte) : (s.setV x b).sp = s.sp := rfl
@[simp] theorem State.setV_dt (x : Nibble) (b : Byte) : (s.setV x b).dt = s.dt := rfl
@[simp] theorem State.setV_st (x : Nibble) (b : Byte) : (s.setV x b).st = s.st := rfl
@[simp] theorem State.setV_memory (x : Nibble) (b : Byte) : (s.setV x b).memory = s.memory := rfl
@[simp] theorem State.setV_fb (x : Nibble) (b : Byte) : (s.setV x b).fb = s.fb := rfl
@[simp] theorem State.setV_keys (x : Nibble) (b : Byte) : (s.setV x b).keys = s.keys := rfl
@[simp] theorem State.setV_faultCause (x : Nibble) (b : Byte) : (s.setV x b).faultCause = s.faultCause := rfl
@[simp] theorem State.setV_font (x : Nibble) (b : Byte) : (s.setV x b).font = s.font := rfl
@[simp] theorem State.setV_rnd (x : Nibble) (b : Byte) : (s.setV x b).rnd = s.rnd := rfl
@[simp] theorem State.setV_draws (x : Nibble) (b : Byte) : (s.setV x b).draws = s.draws := rfl
@[simp] theorem State.setV_hostEvents (x : Nibble) (b : Byte) : (s.setV x b).hostEvents = s.hostEvents := rfl

@[simp] theorem State.setFlag_v (b : Byte) : (s.setFlag b).v = s.v.set 15 b := rfl
@[simp] theorem State.setFlag_i (b : Byte) : (s.setFlag b).i = s.i := rfl
@[simp] theorem State.setFlag_pc (b : Byte) : (s.setFlag b).pc = s.pc := rfl
@[simp] theorem State.setFlag_stack (b : Byte) : (s.setFlag b).stack = s.stack := rfl
@[simp] theorem State.setFlag_sp (b : Byte) : (s.setFlag b).sp = s.sp := rfl
@[simp] theorem State.setFlag_dt (b : Byte) : (s.setFlag b).dt = s.dt := rfl
@[simp] theorem State.setFlag_st (b : Byte) : (s.setFlag b).st = s.st := rfl
@[simp] theorem State.setFlag_memory (b : Byte) : (s.setFlag b).memory = s.memory := rfl
@[simp] theorem State.setFlag_fb (b : Byte) : (s.setFlag b).fb = s.fb := rfl
@[simp] theorem State.setFlag_keys (b : Byte) : (s.setFlag b).keys = s.keys := rfl
@[simp] theorem State.setFlag_faultCause (b : Byte) : (s.setFlag b).faultCause = s.faultCause := rfl
@[simp] theorem State.setFlag_font (b : Byte) : (s.setFlag b).font = s.font := rfl
@[simp] theorem State.setFlag_rnd (b : Byte) : (s.setFlag b).rnd = s.rnd := rfl
@[simp] theorem State.setFlag_draws (b : Byte) : (s.setFlag b).draws = s.draws := rfl
@[simp] theorem State.setFlag_hostEvents (b : Byte) : (s.setFlag b).hostEvents = s.hostEvents := rfl

@[simp] theorem State.setRegs_v (bs : List Byte) : (s.setRegs bs).v = Vector.ofFn fun k : Fin 16 => bs.getD k.val (s.getV k) := rfl
@[simp] theorem State.setRegs_i (bs : List Byte) : (s.setRegs bs).i = s.i := rfl
@[simp] theorem State.setRegs_pc (bs : List Byte) : (s.setRegs bs).pc = s.pc := rfl
@[simp] theorem State.setRegs_stack (bs : List Byte) : (s.setRegs bs).stack = s.stack := rfl
@[simp] theorem State.setRegs_sp (bs : List Byte) : (s.setRegs bs).sp = s.sp := rfl
@[simp] theorem State.setRegs_dt (bs : List Byte) : (s.setRegs bs).dt = s.dt := rfl
@[simp] theorem State.setRegs_st (bs : List Byte) : (s.setRegs bs).st = s.st := rfl
@[simp] theorem State.setRegs_memory (bs : List Byte) : (s.setRegs bs).memory = s.memory := rfl
@[simp] theorem State.setRegs_fb (bs : List Byte) : (s.setRegs bs).fb = s.fb := rfl
@[simp] theorem State.setRegs_keys (bs : List Byte) : (s.setRegs bs).keys = s.keys := rfl
@[simp] theorem State.setRegs_faultCause (bs : List Byte) : (s.setRegs bs).faultCause = s.faultCause := rfl
@[simp] theorem State.setRegs_font (bs : List Byte) : (s.setRegs bs).font = s.font := rfl
@[simp] theorem State.setRegs_rnd (bs : List Byte) : (s.setRegs bs).rnd = s.rnd := rfl
@[simp] theorem State.setRegs_draws (bs : List Byte) : (s.setRegs bs).draws = s.draws := rfl
@[simp] theorem State.setRegs_hostEvents (bs : List Byte) : (s.setRegs bs).hostEvents = s.hostEvents := rfl

@[simp] theorem State.setI_v (a : Word) : (s.setI a).v = s.v := rfl
@[simp] theorem State.setI_i (a : Word) : (s.setI a).i = a := rfl
@[simp] theorem State.setI_pc (a : Word) : (s.setI a).pc = s.pc := rfl
@[simp] theorem State.setI_stack (a : Word) : (s.setI a).stack = s.stack := rfl
@[simp] theorem State.setI_sp (a : Word) : (s.setI a).sp = s.sp := rfl
@[simp] theorem State.setI_dt (a : Word) : (s.setI a).dt = s.dt := rfl
@[simp] theorem State.setI_st (a : Word) : (s.setI a).st = s.st := rfl
@[simp] theorem State.setI_memory (a : Word) : (s.setI a).memory = s.memory := rfl
@[simp] theorem State.setI_fb (a : Word) : (s.setI a).fb = s.fb := rfl
@[simp] theorem State.setI_keys (a : Word) : (s.setI a).keys = s.keys := rfl
@[simp] theorem State.setI_faultCause (a : Word) : (s.setI a).faultCause = s.faultCause := rfl
@[simp] theorem State.setI_font (a : Word) : (s.setI a).font = s.font := rfl
@[simp] theorem State.setI_rnd (a : Word) : (s.setI a).rnd = s.rnd := rfl
@[simp] theorem State.setI_draws (a : Word) : (s.setI a).draws = s.draws := rfl
@[simp] theorem State.setI_hostEvents (a : Word) : (s.setI a).hostEvents = s.hostEvents := rfl

@[simp] theorem State.setPc_v (a : Word) : (s.setPc a).v = s.v := rfl
@[simp] theorem State.setPc_i (a : Word) : (s.setPc a).i = s.i := rfl
@[simp] theorem State.setPc_pc (a : Word) : (s.setPc a).pc = a := rfl
@[simp] theorem State.setPc_stack (a : Word) : (s.setPc a).stack = s.stack := rfl
@[simp] theorem State.setPc_sp (a : Word) : (s.setPc a).sp = s.sp := rfl
@[simp] theorem State.setPc_dt (a : Word) : (s.setPc a).dt = s.dt := rfl
@[simp] theorem State.setPc_st (a : Word) : (s.setPc a).st = s.st := rfl
@[simp] theorem State.setPc_memory (a : Word) : (s.setPc a).memory = s.memory := rfl
@[simp] theorem State.setPc_fb (a : Word) : (s.setPc a).fb = s.fb := rfl
@[simp] theorem State.setPc_keys (a : Word) : (s.setPc a).keys = s.keys := rfl
@[simp] theorem State.setPc_faultCause (a : Word) : (s.setPc a).faultCause = s.faultCause := rfl
@[simp] theorem State.setPc_font (a : Word) : (s.setPc a).font = s.font := rfl
@[simp] theorem State.setPc_rnd (a : Word) : (s.setPc a).rnd = s.rnd := rfl
@[simp] theorem State.setPc_draws (a : Word) : (s.setPc a).draws = s.draws := rfl
@[simp] theorem State.setPc_hostEvents (a : Word) : (s.setPc a).hostEvents = s.hostEvents := rfl

@[simp] theorem State.setDt_v (b : Byte) : (s.setDt b).v = s.v := rfl
@[simp] theorem State.setDt_i (b : Byte) : (s.setDt b).i = s.i := rfl
@[simp] theorem State.setDt_pc (b : Byte) : (s.setDt b).pc = s.pc := rfl
@[simp] theorem State.setDt_stack (b : Byte) : (s.setDt b).stack = s.stack := rfl
@[simp] theorem State.setDt_sp (b : Byte) : (s.setDt b).sp = s.sp := rfl
@[simp] theorem State.setDt_dt (b : Byte) : (s.setDt b).dt = b := rfl
@[simp] theorem State.setDt_st (b : Byte) : (s.setDt b).st = s.st := rfl
@[simp] theorem State.setDt_memory (b : Byte) : (s.setDt b).memory = s.memory := rfl
@[simp] theorem State.setDt_fb (b : Byte) : (s.setDt b).fb = s.fb := rfl
@[simp] theorem State.setDt_keys (b : Byte) : (s.setDt b).keys = s.keys := rfl
@[simp] theorem State.setDt_faultCause (b : Byte) : (s.setDt b).faultCause = s.faultCause := rfl
@[simp] theorem State.setDt_font (b : Byte) : (s.setDt b).font = s.font := rfl
@[simp] theorem State.setDt_rnd (b : Byte) : (s.setDt b).rnd = s.rnd := rfl
@[simp] theorem State.setDt_draws (b : Byte) : (s.setDt b).draws = s.draws := rfl
@[simp] theorem State.setDt_hostEvents (b : Byte) : (s.setDt b).hostEvents = s.hostEvents := rfl

@[simp] theorem State.setSt_v (b : Byte) : (s.setSt b).v = s.v := rfl
@[simp] theorem State.setSt_i (b : Byte) : (s.setSt b).i = s.i := rfl
@[simp] theorem State.setSt_pc (b : Byte) : (s.setSt b).pc = s.pc := rfl
@[simp] theorem State.setSt_stack (b : Byte) : (s.setSt b).stack = s.stack := rfl
@[simp] theorem State.setSt_sp (b : Byte) : (s.setSt b).sp = s.sp := rfl
@[simp] theorem State.setSt_dt (b : Byte) : (s.setSt b).dt = s.dt := rfl
@[simp] theorem State.setSt_st (b : Byte) : (s.setSt b).st = b := rfl
@[simp] theorem State.setSt_memory (b : Byte) : (s.setSt b).memory = s.memory := rfl
@[simp] theorem State.setSt_fb (b : Byte) : (s.setSt b).fb = s.fb := rfl
@[simp] theorem State.setSt_keys (b : Byte) : (s.setSt b).keys = s.keys := rfl
@[simp] theorem State.setSt_faultCause (b : Byte) : (s.setSt b).faultCause = s.faultCause := rfl
@[simp] theorem State.setSt_font (b : Byte) : (s.setSt b).font = s.font := rfl
@[simp] theorem State.setSt_rnd (b : Byte) : (s.setSt b).rnd = s.rnd := rfl
@[simp] theorem State.setSt_draws (b : Byte) : (s.setSt b).draws = s.draws := rfl
@[simp] theorem State.setSt_hostEvents (b : Byte) : (s.setSt b).hostEvents = s.hostEvents := rfl

@[simp] theorem State.setFb_v (fb : Framebuffer) : (s.setFb fb).v = s.v := rfl
@[simp] theorem State.setFb_i (fb : Framebuffer) : (s.setFb fb).i = s.i := rfl
@[simp] theorem State.setFb_pc (fb : Framebuffer) : (s.setFb fb).pc = s.pc := rfl
@[simp] theorem State.setFb_stack (fb : Framebuffer) : (s.setFb fb).stack = s.stack := rfl
@[simp] theorem State.setFb_sp (fb : Framebuffer) : (s.setFb fb).sp = s.sp := rfl
@[simp] theorem State.setFb_dt (fb : Framebuffer) : (s.setFb fb).dt = s.dt := rfl
@[simp] theorem State.setFb_st (fb : Framebuffer) : (s.setFb fb).st = s.st := rfl
@[simp] theorem State.setFb_memory (fb : Framebuffer) : (s.setFb fb).memory = s.memory := rfl
@[simp] theorem State.setFb_fb (fb : Framebuffer) : (s.setFb fb).fb = fb := rfl
@[simp] theorem State.setFb_keys (fb : Framebuffer) : (s.setFb fb).keys = s.keys := rfl
@[simp] theorem State.setFb_faultCause (fb : Framebuffer) : (s.setFb fb).faultCause = s.faultCause := rfl
@[simp] theorem State.setFb_font (fb : Framebuffer) : (s.setFb fb).font = s.font := rfl
@[simp] theorem State.setFb_rnd (fb : Framebuffer) : (s.setFb fb).rnd = s.rnd := rfl
@[simp] theorem State.setFb_draws (fb : Framebuffer) : (s.setFb fb).draws = s.draws := rfl
@[simp] theorem State.setFb_hostEvents (fb : Framebuffer) : (s.setFb fb).hostEvents = s.hostEvents := rfl

@[simp] theorem State.setKey_v (k : Nibble) (d : Bool) : (s.setKey k d).v = s.v := rfl
@[simp] theorem State.setKey_i (k : Nibble) (d : Bool) : (s.setKey k d).i = s.i := rfl
@[simp] theorem State.setKey_pc (k : Nibble) (d : Bool) : (s.setKey k d).pc = s.pc := rfl
@[simp] theorem State.setKey_stack (k : Nibble) (d : Bool) : (s.setKey k d).stack = s.stack := rfl
@[simp] theorem State.setKey_sp (k : Nibble) (d : Bool) : (s.setKey k d).sp = s.sp := rfl
@[simp] theorem State.setKey_dt (k : Nibble) (d : Bool) : (s.setKey k d).dt = s.dt := rfl
@[simp] theorem State.setKey_st (k : Nibble) (d : Bool) : (s.setKey k d).st = s.st := rfl
@[simp] theorem State.setKey_memory (k : Nibble) (d : Bool) : (s.setKey k d).memory = s.memory := rfl
@[simp] theorem State.setKey_fb (k : Nibble) (d : Bool) : (s.setKey k d).fb = s.fb := rfl
@[simp] theorem State.setKey_keys (k : Nibble) (d : Bool) : (s.setKey k d).keys = s.keys.set k d := rfl
@[simp] theorem State.setKey_faultCause (k : Nibble) (d : Bool) : (s.setKey k d).faultCause = s.faultCause := rfl
@[simp] theorem State.setKey_font (k : Nibble) (d : Bool) : (s.setKey k d).font = s.font := rfl
@[simp] theorem State.setKey_rnd (k : Nibble) (d : Bool) : (s.setKey k d).rnd = s.rnd := rfl
@[simp] theorem State.setKey_draws (k : Nibble) (d : Bool) : (s.setKey k d).draws = s.draws := rfl
@[simp] theorem State.setKey_hostEvents (k : Nibble) (d : Bool) : (s.setKey k d).hostEvents = s.hostEvents := rfl

@[simp] theorem State.setRnd_v (r : Byte) : (s.setRnd r).v = s.v := rfl
@[simp] theorem State.setRnd_i (r : Byte) : (s.setRnd r).i = s.i := rfl
@[simp] theorem State.setRnd_pc (r : Byte) : (s.setRnd r).pc = s.pc := rfl
@[simp] theorem State.setRnd_stack (r : Byte) : (s.setRnd r).stack = s.stack := rfl
@[simp] theorem State.setRnd_sp (r : Byte) : (s.setRnd r).sp = s.sp := rfl
@[simp] theorem State.setRnd_dt (r : Byte) : (s.setRnd r).dt = s.dt := rfl
@[simp] theorem State.setRnd_st (r : Byte) : (s.setRnd r).st = s.st := rfl
@[simp] theorem State.setRnd_memory (r : Byte) : (s.setRnd r).memory = s.memory := rfl
@[simp] theorem State.setRnd_fb (r : Byte) : (s.setRnd r).fb = s.fb := rfl
@[simp] theorem State.setRnd_keys (r : Byte) : (s.setRnd r).keys = s.keys := rfl
@[simp] theorem State.setRnd_faultCause (r : Byte) : (s.setRnd r).faultCause = s.faultCause := rfl
@[simp] theorem State.setRnd_font (r : Byte) : (s.setRnd r).font = s.font := rfl
@[simp] theorem State.setRnd_rnd (r : Byte) : (s.setRnd r).rnd = r := rfl
@[simp] theorem State.setRnd_draws (r : Byte) : (s.setRnd r).draws = s.draws := rfl
@[simp] theorem State.setRnd_hostEvents (r : Byte) : (s.setRnd r).hostEvents = s.hostEvents := rfl

@[simp] theorem State.writeMem_v (a : Nat) (b : Byte) : (s.writeMem a b).v = s.v := rfl
@[simp] theorem State.writeMem_i (a : Nat) (b : Byte) : (s.writeMem a b).i = s.i := rfl
@[simp] theorem State.writeMem_pc (a : Nat) (b : Byte) : (s.writeMem a b).pc = s.pc := rfl
@[simp] theorem State.writeMem_stack (a : Nat) (b : Byte) : (s.writeMem a b).stack = s.stack := rfl
@[simp] theorem State.writeMem_sp (a : Nat) (b : Byte) : (s.writeMem a b).sp = s.sp := rfl
@[simp] theorem State.writeMem_dt (a : Nat) (b : Byte) : (s.writeMem a b).dt = s.dt := rfl
@[simp] theorem State.writeMem_st (a : Nat) (b : Byte) : (s.writeMem a b).st = s.st := rfl
@[simp] theorem State.writeMem_memory (a : Nat) (b : Byte) : (s.writeMem a b).memory = Memory.write s.font s.memory a b := rfl
@[simp] theorem State.writeMem_fb (a : Nat) (b : Byte) : (s.writeMem a b).fb = s.fb := rfl
@[simp] theorem State.writeMem_keys (a : Nat) (b : Byte) : (s.writeMem a b).keys = s.keys := rfl
@[simp] theorem State.writeMem_faultCause (a : Nat) (b : Byte) : (s.writeMem a b).faultCause = s.faultCause := rfl
@[simp] theorem State.writeMem_font (a : Nat) (b : Byte) : (s.writeMem a b).font = s.font := rfl
@[simp] theorem State.writeMem_rnd (a : Nat) (b : Byte) : (s.writeMem a b).rnd = s.rnd := rfl
@[simp] theorem State.writeMem_draws (a : Nat) (b : Byte) : (s.writeMem a b).draws = s.draws := rfl
@[simp] theorem State.writeMem_hostEvents (a : Nat) (b : Byte) : (s.writeMem a b).hostEvents = s.hostEvents := rfl

@[simp] theorem State.advance_v : s.advance.v = s.v := rfl
@[simp] theorem State.advance_i : s.advance.i = s.i := rfl
@[simp] theorem State.advance_pc : s.advance.pc = s.pc + 2 := rfl
@[simp] theorem State.advance_stack : s.advance.stack = s.stack := rfl
@[simp] theorem State.advance_sp : s.advance.sp = s.sp := rfl
@[simp] theorem State.advance_dt : s.advance.dt = s.dt := rfl
@[simp] theorem State.advance_st : s.advance.st = s.st := rfl
@[simp] theorem State.advance_memory : s.advance.memory = s.memory := rfl
@[simp] theorem State.advance_fb : s.advance.fb = s.fb := rfl
@[simp] theorem State.advance_keys : s.advance.keys = s.keys := rfl
@[simp] theorem State.advance_faultCause : s.advance.faultCause = s.faultCause := rfl
@[simp] theorem State.advance_font : s.advance.font = s.font := rfl
@[simp] theorem State.advance_rnd : s.advance.rnd = s.rnd := rfl
@[simp] theorem State.advance_draws : s.advance.draws = s.draws := rfl
@[simp] theorem State.advance_hostEvents : s.advance.hostEvents = s.hostEvents := rfl

@[simp] theorem State.skipIf_v (c : Bool) : (s.skipIf c).v = s.v := rfl
@[simp] theorem State.skipIf_i (c : Bool) : (s.skipIf c).i = s.i := rfl
@[simp] theorem State.skipIf_pc (c : Bool) : (s.skipIf c).pc = if c then s.pc + 4 else s.pc + 2 := rfl
@[simp] theorem State.skipIf_stack (c : Bool) : (s.skipIf c).stack = s.stack := rfl
@[simp] theorem State.skipIf_sp (c : Bool) : (s.skipIf c).sp = s.sp := rfl
@[simp] theorem State.skipIf_dt (c : Bool) : (s.skipIf c).dt = s.dt := rfl
@[simp] theorem State.skipIf_st (c : Bool) : (s.skipIf c).st = s.st := rfl
@[simp] theorem State.skipIf_memory (c : Bool) : (s.skipIf c).memory = s.memory := rfl
@[simp] theorem State.skipIf_fb (c : Bool) : (s.skipIf c).fb = s.fb := rfl
@[simp] theorem State.skipIf_keys (c : Bool) : (s.skipIf c).keys = s.keys := rfl
@[simp] theorem State.skipIf_faultCause (c : Bool) : (s.skipIf c).faultCause = s.faultCause := rfl
@[simp] theorem State.skipIf_font (c : Bool) : (s.skipIf c).font = s.font := rfl
@[simp] theorem State.skipIf_rnd (c : Bool) : (s.skipIf c).rnd = s.rnd := rfl
@[simp] theorem State.skipIf_draws (c : Bool) : (s.skipIf c).draws = s.draws := rfl
@[simp] theorem State.skipIf_hostEvents (c : Bool) : (s.skipIf c).hostEvents = s.hostEvents := rfl

@[simp] theorem State.raise_v (c : Cause) : (s.raise c).v = s.v := rfl
@[simp] theorem State.raise_i (c : Cause) : (s.raise c).i = s.i := rfl
@[simp] theorem State.raise_pc (c : Cause) : (s.raise c).pc = s.pc := rfl
@[simp] theorem State.raise_stack (c : Cause) : (s.raise c).stack = s.stack := rfl
@[simp] theorem State.raise_sp (c : Cause) : (s.raise c).sp = s.sp := rfl
@[simp] theorem State.raise_dt (c : Cause) : (s.raise c).dt = s.dt := rfl
@[simp] theorem State.raise_st (c : Cause) : (s.raise c).st = s.st := rfl
@[simp] theorem State.raise_memory (c : Cause) : (s.raise c).memory = s.memory := rfl
@[simp] theorem State.raise_fb (c : Cause) : (s.raise c).fb = s.fb := rfl
@[simp] theorem State.raise_keys (c : Cause) : (s.raise c).keys = s.keys := rfl
@[simp] theorem State.raise_faultCause (c : Cause) : (s.raise c).faultCause = c.code := rfl
@[simp] theorem State.raise_font (c : Cause) : (s.raise c).font = s.font := rfl
@[simp] theorem State.raise_rnd (c : Cause) : (s.raise c).rnd = s.rnd := rfl
@[simp] theorem State.raise_draws (c : Cause) : (s.raise c).draws = s.draws := rfl
@[simp] theorem State.raise_hostEvents (c : Cause) : (s.raise c).hostEvents = s.hostEvents := rfl

@[simp] theorem State.setV_key (x : Nibble) (b : Byte) (k' : Nibble) : (s.setV x b).key k' = s.key k' := rfl
@[simp] theorem State.setV_readMem (x : Nibble) (b : Byte) (a' : Nat) : (s.setV x b).readMem a' = s.readMem a' := rfl
@[simp] theorem State.setV_faulted (x : Nibble) (b : Byte) : (s.setV x b).faulted = s.faulted := rfl
@[simp] theorem State.setFlag_key (b : Byte) (k' : Nibble) : (s.setFlag b).key k' = s.key k' := rfl
@[simp] theorem State.setFlag_readMem (b : Byte) (a' : Nat) : (s.setFlag b).readMem a' = s.readMem a' := rfl
@[simp] theorem State.setFlag_faulted (b : Byte) : (s.setFlag b).faulted = s.faulted := rfl
@[simp] theorem State.setRegs_key (bs : List Byte) (k' : Nibble) : (s.setRegs bs).key k' = s.key k' := rfl
@[simp] theorem State.setRegs_readMem (bs : List Byte) (a' : Nat) : (s.setRegs bs).readMem a' = s.readMem a' := rfl
@[simp] theorem State.setRegs_faulted (bs : List Byte) : (s.setRegs bs).faulted = s.faulted := rfl
@[simp] theorem State.setI_getV (a : Word) (r : Nibble) : (s.setI a).getV r = s.getV r := rfl
@[simp] theorem State.setI_key (a : Word) (k' : Nibble) : (s.setI a).key k' = s.key k' := rfl
@[simp] theorem State.setI_readMem (a : Word) (a' : Nat) : (s.setI a).readMem a' = s.readMem a' := rfl
@[simp] theorem State.setI_faulted (a : Word) : (s.setI a).faulted = s.faulted := rfl
@[simp] theorem State.setPc_getV (a : Word) (r : Nibble) : (s.setPc a).getV r = s.getV r := rfl
@[simp] theorem State.setPc_key (a : Word) (k' : Nibble) : (s.setPc a).key k' = s.key k' := rfl
@[simp] theorem State.setPc_readMem (a : Word) (a' : Nat) : (s.setPc a).readMem a' = s.readMem a' := rfl
@[simp] theorem State.setPc_faulted (a : Word) : (s.setPc a).faulted = s.faulted := rfl
@[simp] theorem State.setDt_getV (b : Byte) (r : Nibble) : (s.setDt b).getV r = s.getV r := rfl
@[simp] theorem State.setDt_key (b : Byte) (k' : Nibble) : (s.setDt b).key k' = s.key k' := rfl
@[simp] theorem State.setDt_readMem (b : Byte) (a' : Nat) : (s.setDt b).readMem a' = s.readMem a' := rfl
@[simp] theorem State.setDt_faulted (b : Byte) : (s.setDt b).faulted = s.faulted := rfl
@[simp] theorem State.setSt_getV (b : Byte) (r : Nibble) : (s.setSt b).getV r = s.getV r := rfl
@[simp] theorem State.setSt_key (b : Byte) (k' : Nibble) : (s.setSt b).key k' = s.key k' := rfl
@[simp] theorem State.setSt_readMem (b : Byte) (a' : Nat) : (s.setSt b).readMem a' = s.readMem a' := rfl
@[simp] theorem State.setSt_faulted (b : Byte) : (s.setSt b).faulted = s.faulted := rfl
@[simp] theorem State.setFb_getV (fb : Framebuffer) (r : Nibble) : (s.setFb fb).getV r = s.getV r := rfl
@[simp] theorem State.setFb_key (fb : Framebuffer) (k' : Nibble) : (s.setFb fb).key k' = s.key k' := rfl
@[simp] theorem State.setFb_readMem (fb : Framebuffer) (a' : Nat) : (s.setFb fb).readMem a' = s.readMem a' := rfl
@[simp] theorem State.setFb_faulted (fb : Framebuffer) : (s.setFb fb).faulted = s.faulted := rfl
@[simp] theorem State.setKey_getV (k : Nibble) (d : Bool) (r : Nibble) : (s.setKey k d).getV r = s.getV r := rfl
@[simp] theorem State.setKey_readMem (k : Nibble) (d : Bool) (a' : Nat) : (s.setKey k d).readMem a' = s.readMem a' := rfl
@[simp] theorem State.setKey_faulted (k : Nibble) (d : Bool) : (s.setKey k d).faulted = s.faulted := rfl
@[simp] theorem State.setRnd_getV (b : Byte) (r : Nibble) : (s.setRnd b).getV r = s.getV r := rfl
@[simp] theorem State.setRnd_key (r : Byte) (k' : Nibble) : (s.setRnd r).key k' = s.key k' := rfl
@[simp] theorem State.setRnd_readMem (r : Byte) (a' : Nat) : (s.setRnd r).readMem a' = s.readMem a' := rfl
@[simp] theorem State.setRnd_faulted (r : Byte) : (s.setRnd r).faulted = s.faulted := rfl
@[simp] theorem State.writeMem_getV (a : Nat) (b : Byte) (r : Nibble) : (s.writeMem a b).getV r = s.getV r := rfl
@[simp] theorem State.writeMem_key (a : Nat) (b : Byte) (k' : Nibble) : (s.writeMem a b).key k' = s.key k' := rfl
@[simp] theorem State.writeMem_faulted (a : Nat) (b : Byte) : (s.writeMem a b).faulted = s.faulted := rfl
@[simp] theorem State.advance_getV  (r : Nibble) : s.advance.getV r = s.getV r := rfl
@[simp] theorem State.advance_key  (k' : Nibble) : s.advance.key k' = s.key k' := rfl
@[simp] theorem State.advance_readMem  (a' : Nat) : s.advance.readMem a' = s.readMem a' := rfl
@[simp] theorem State.advance_faulted : s.advance.faulted = s.faulted := rfl
@[simp] theorem State.skipIf_getV (c : Bool) (r : Nibble) : (s.skipIf c).getV r = s.getV r := rfl
@[simp] theorem State.skipIf_key (c : Bool) (k' : Nibble) : (s.skipIf c).key k' = s.key k' := rfl
@[simp] theorem State.skipIf_readMem (c : Bool) (a' : Nat) : (s.skipIf c).readMem a' = s.readMem a' := rfl
@[simp] theorem State.skipIf_faulted (c : Bool) : (s.skipIf c).faulted = s.faulted := rfl
@[simp] theorem State.raise_getV (c : Cause) (r : Nibble) : (s.raise c).getV r = s.getV r := rfl
@[simp] theorem State.raise_key (c : Cause) (k' : Nibble) : (s.raise c).key k' = s.key k' := rfl
@[simp] theorem State.raise_readMem (c : Cause) (a' : Nat) : (s.raise c).readMem a' = s.readMem a' := rfl

/-- A register write: the register holds the value, every other register is as before. -/
@[simp] theorem State.getV_setV (x r : Nibble) (b : Byte) : (s.setV x b).getV r = if r = x then b else s.getV r := by
  unfold State.getV State.setV
  by_cases h : r = x
  · subst h; simp
  · have : x.val ≠ r.val := fun e => h (Fin.ext e.symm)
    simp [h, this]

@[simp] theorem State.getV_setFlag (r : Nibble) (b : Byte) : (s.setFlag b).getV r = if r = 15 then b else s.getV r :=
  s.getV_setV 15 r b

/-- Loading registers from a list: those within its length take its entries. -/
@[simp] theorem State.getV_setRegs (bs : List Byte) (r : Nibble) : (s.setRegs bs).getV r = bs.getD r.val (s.getV r) := by
  simp [State.getV, State.setRegs]

@[simp] theorem State.key_setKey (k k' : Nibble) (d : Bool) : (s.setKey k d).key k' = if k' = k then d else s.key k' := by
  unfold State.key State.setKey
  by_cases h : k' = k
  · subst h; simp
  · have : k.val ≠ k'.val := fun e => h (Fin.ext e.symm)
    simp [h, this]

/-- The stored block of registers: its length, and register `k` at place `k`. -/
@[simp] theorem State.length_regsUpTo (x : Nibble) : (s.regsUpTo x).length = x.val + 1 := by
  simp [State.regsUpTo]

theorem State.getD_regsUpTo (x : Nibble) (k : Nibble) (h : k.val ≤ x.val) : (s.regsUpTo x).getD k.val 0 = s.getV k := by
  have h' : k.val < (s.regsUpTo x).length := by rw [State.length_regsUpTo]; omega
  rw [List.getD_eq_getElem _ _ h']
  simp [State.regsUpTo, State.getV]

/-- The bytes read: their number, and cell `a + k` at place `k`. -/
@[simp] theorem State.length_readBytes (a n : Nat) : (s.readBytes a n).length = n := by simp [State.readBytes]

theorem State.getD_readBytes (a n k : Nat) (d : Byte) : (s.readBytes a n).getD k d = if k < n then s.readMem (a + k) else d := by
  unfold State.readBytes
  by_cases h : k < n
  · rw [List.getD_eq_getElem _ _ (by simpa using h)]; simp [h]
  · rw [List.getD_eq_default _ _ (by simpa using h)]; simp [h]

/-- What RESET leaves, whatever was before (R190, R191). -/
@[simp] theorem State.resetEvent_memory : s.resetEvent.memory = [] := rfl
@[simp] theorem State.resetEvent_font : s.resetEvent.font = s.font := rfl
@[simp] theorem State.resetEvent_keys : s.resetEvent.keys = s.keys := rfl
@[simp] theorem State.resetEvent_faultCause : s.resetEvent.faultCause = 0 := rfl

end Sys2Proof.Machine
end

