-- ==== Sys2Proof/Laws/Display.lean ====
section
/-! SUPPORT. The sprite pipeline in closed form: which pixels a draw flips, and when it collides. -/

namespace Sys2Proof.Machine

/-- A flipped pixel is flipped and no other is. -/
theorem pixel_togglePixel (fb : Framebuffer) (px qx : Fin 64) (py qy : Fin 32) :
    pixel (togglePixel fb px py) qx qy = if qx = px ∧ qy = py then !pixel fb qx qy else pixel fb qx qy := by
  unfold pixel togglePixel
  by_cases hy : qy = py
  · subst hy
    by_cases hx : qx = px
    · subst hx; simp
    · have : ¬ qx.val = px.val := fun e => hx (Fin.ext e)
      simp [hx, this]
  · have : py.val ≠ qy.val := fun e => hy (Fin.ext e.symm)
    simp [hy, this]

/-- From `acc` to `acc'` exactly the pixels of `P` are flipped, and a collision is recorded when one of them was set. -/
structure Draws (acc acc' : Framebuffer × Bool) (P : Fin 64 → Fin 32 → Prop) : Prop where
  inside : ∀ px py, P px py → pixel acc'.1 px py = !pixel acc.1 px py
  outside : ∀ px py, ¬ P px py → pixel acc'.1 px py = pixel acc.1 px py
  collision : acc'.2 = true ↔ acc.2 = true ∨ ∃ px py, P px py ∧ pixel acc.1 px py = true

theorem Draws.refl (acc : Framebuffer × Bool) : Draws acc acc fun _ _ => False :=
  ⟨fun _ _ h => h.elim, fun _ _ _ => rfl, by simp⟩

/-- Two draws on disjoint sets of pixels are one draw on their union. -/
theorem Draws.trans {a b c : Framebuffer × Bool} {P Q : Fin 64 → Fin 32 → Prop} (h : Draws a b P) (h' : Draws b c Q)
    (hd : ∀ px py, P px py → ¬ Q px py) : Draws a c fun px py => P px py ∨ Q px py where
  inside px py hpq := by
    rcases hpq with hp | hq
    · rw [h'.outside px py (hd px py hp), h.inside px py hp]
    · rw [h'.inside px py hq, h.outside px py fun hp => hd px py hp hq]
  outside px py hn := by
    rw [h'.outside px py fun hq => hn (.inr hq), h.outside px py fun hp => hn (.inl hp)]
  collision := by
    rw [h'.collision, h.collision]
    constructor
    · rintro ((hc | ⟨px, py, hp, hx⟩) | ⟨px, py, hq, hx⟩)
      · exact .inl hc
      · exact .inr ⟨px, py, .inl hp, hx⟩
      · exact .inr ⟨px, py, .inr hq, by rwa [h.outside px py fun hp => hd px py hp hq] at hx⟩
    · rintro (hc | ⟨px, py, hp | hq, hx⟩)
      · exact .inl (.inl hc)
      · exact .inl (.inr ⟨px, py, hp, hx⟩)
      · exact .inr ⟨px, py, hq, by rwa [h.outside px py fun hp => hd px py hp hq]⟩

theorem Draws.congr {a b : Framebuffer × Bool} {P Q : Fin 64 → Fin 32 → Prop} (h : Draws a b P) (e : ∀ px py, P px py ↔ Q px py) :
    Draws a b Q := by
  have : P = Q := by funext px py; exact propext (e px py)
  exact this ▸ h

theorem drawPixel_draws (ox oy r c : Nat) (b : Byte) (acc : Framebuffer × Bool) :
    Draws acc (drawPixel ox oy r c b acc)
      fun px py => b.getLsbD (7 - c) = true ∧ (ox + c) % 64 = px.val ∧ (oy + r) % 32 = py.val := by
  have ex : ∀ px : Fin 64, px = Fin.ofNat 64 (ox + c) ↔ (ox + c) % 64 = px.val := fun px => by
    rw [Fin.ext_iff]; exact eq_comm
  have ey : ∀ py : Fin 32, py = Fin.ofNat 32 (oy + r) ↔ (oy + r) % 32 = py.val := fun py => by
    rw [Fin.ext_iff]; exact eq_comm
  unfold drawPixel
  by_cases h : b.getLsbD (7 - c) = true
  · rw [if_pos h]
    refine ⟨fun px py hp => ?_, fun px py hp => ?_, ?_⟩
    · rw [pixel_togglePixel, if_pos ⟨(ex px).2 hp.2.1, (ey py).2 hp.2.2⟩]
    · rw [pixel_togglePixel, if_neg fun e => hp ⟨h, (ex px).1 e.1, (ey py).1 e.2⟩]
    · simp only [Bool.or_eq_true]
      refine or_congr_right ⟨fun e => ⟨_, _, ⟨h, (ex _).1 rfl, (ey _).1 rfl⟩, e⟩, ?_⟩
      rintro ⟨px, py, ⟨_, hx, hy⟩, e⟩
      rw [(ex px).2 hx, (ey py).2 hy] at e; exact e
  · rw [if_neg h]; exact (Draws.refl acc).congr fun px py => by simp [h]

theorem drawRow_draws (ox oy r : Nat) (b : Byte) (k : Nat) (hk : k ≤ 8) (acc : Framebuffer × Bool) :
    Draws acc (drawRow ox oy r b k acc)
      fun px py => ∃ c, c < k ∧ b.getLsbD (7 - c) = true ∧ (ox + c) % 64 = px.val ∧ (oy + r) % 32 = py.val := by
  induction k with
  | zero => exact (Draws.refl acc).congr fun px py => by simp
  | succ k ih =>
    refine ((ih (by omega)).trans (drawPixel_draws ox oy r k b _) ?_).congr ?_
    · rintro px py ⟨c, hc, -, h, -⟩ ⟨-, h', -⟩; omega
    · intro px py; constructor
      · rintro (⟨c, hc, h⟩ | h)
        · exact ⟨c, by omega, h⟩
        · exact ⟨k, by omega, h⟩
      · rintro ⟨c, hc, h⟩
        by_cases e : c = k
        · exact .inr (e ▸ h)
        · exact .inl ⟨c, by omega, h⟩

theorem drawRows_draws (ox oy : Nat) (sprite : List Byte) (n : Nat) (hn : n ≤ 32) (acc : Framebuffer × Bool) :
    Draws acc (drawRows ox oy sprite n acc)
      fun px py => ∃ r c, r < n ∧ c < 8 ∧ (sprite.getD r 0).getLsbD (7 - c) = true ∧ (ox + c) % 64 = px.val ∧ (oy + r) % 32 = py.val := by
  induction n with
  | zero => exact (Draws.refl acc).congr fun px py => by simp
  | succ n ih =>
    refine ((ih (by omega)).trans (drawRow_draws ox oy n (sprite.getD n 0) 8 (Nat.le_refl 8) _) ?_).congr ?_
    · rintro px py ⟨r, c, hr, -, -, -, h⟩ ⟨c', -, -, -, h'⟩; omega
    · intro px py; constructor
      · rintro (⟨r, c, hr, h⟩ | ⟨c, h⟩)
        · exact ⟨r, c, by omega, h⟩
        · exact ⟨n, c, by omega, h⟩
      · rintro ⟨r, c, hr, h⟩
        by_cases e : r = n
        · exact .inr ⟨c, e ▸ h⟩
        · exact .inl ⟨r, c, by omega, h⟩

/-- The sprite of an instruction, row `r` of it read at `I + r` (R141). -/
theorem State.drawSprite_draws (s : State) (x y n : Nibble) : Draws (s.fb, false) (s.drawSprite x y n)
    fun px py => ∃ r c : Nat, r < n.val ∧ c < 8 ∧ (s.readMem (s.i.toNat + r)).getLsbD (7 - c) = true
      ∧ ((s.getV x).toNat % 64 + c) % 64 = px.val ∧ ((s.getV y).toNat % 32 + r) % 32 = py.val := by
  refine (drawRows_draws _ _ (s.readBytes s.base n.val) n.val (by omega) (s.fb, false)).congr fun px py => ?_
  refine exists_congr fun r => exists_congr fun c => and_congr_right fun hr => ?_
  rw [s.getD_readBytes, if_pos hr]; rfl

/-- Framebuffers with equal pixels are equal. -/
theorem framebuffer_ext {a b : Framebuffer} (h : ∀ px py, pixel a px py = pixel b px py) : a = b := by
  apply Vector.ext; intro k hk
  apply BitVec.eq_of_getLsbD_eq; intro i hi
  exact h ⟨i, hi⟩ ⟨k, hk⟩

theorem pixel_clear (px : Fin 64) (py : Fin 32) : pixel (Vector.replicate 32 0) px py = false := by simp [pixel]

end Sys2Proof.Machine
end

