-- ==== Sys2Proof/Laws/Memory.lean ====
section
/-! SUPPORT. The laws of memory: a read after a write, and the canonical form, which every memory operation keeps. -/

namespace Sys2Proof.Machine

variable (font : Vector Byte 80)

theorem Memory.listed_put (a b : Nat) (v : Byte) (m : Memory) :
    Memory.listed b (Memory.put a v m) = if b = a then some v else Memory.listed b m := by
  induction m with
  | nil => simp [Memory.put, Memory.listed]
  | cons c m ih =>
    obtain ⟨c, w⟩ := c
    rcases Nat.lt_trichotomy a c with h | h | h
    · rw [Memory.put, if_pos h]; simp [Memory.listed]
    · subst h; rw [Memory.put, if_neg (by omega), if_pos rfl]
      by_cases e : b = a <;> simp [Memory.listed, e]
    · rw [Memory.put, if_neg (by omega), if_neg (by omega)]
      by_cases e : b = c
      · simp [Memory.listed, e, show c ≠ a by omega]
      · simp [Memory.listed, e, ih]

theorem Memory.listed_unlist (a b : Nat) (m : Memory) :
    Memory.listed b (Memory.unlist a m) = if b = a then none else Memory.listed b m := by
  induction m with
  | nil => simp [Memory.unlist, Memory.listed]
  | cons c m ih =>
    obtain ⟨c, w⟩ := c
    by_cases h : a = c
    · subst h; rw [Memory.unlist, if_pos rfl, ih]
      by_cases e : b = a <;> simp [Memory.listed, e]
    · rw [Memory.unlist, if_neg h]
      by_cases e : b = c
      · simp [Memory.listed, e, show c ≠ a by omega]
      · simp [Memory.listed, e, ih]

/-- A read after a write: the written cell gives the value, every other cell what it gave before (R56, R60). -/
theorem Memory.read_write (m : Memory) (a b : Nat) (v : Byte) :
    Memory.read font (Memory.write font m a v) b = if b = a then v else Memory.read font m b := by
  unfold Memory.read Memory.write
  split_ifs with h1 h2 h2
  · simp [Memory.listed_unlist, h2, h1]
  · simp [Memory.listed_unlist, h2]
  · simp [Memory.listed_put, h2]
  · simp [Memory.listed_put, h2]

/-- A bound below all the listed addresses stays one. -/
theorem Memory.all_put (m : Memory) (a c : Nat) (v : Byte) (h : c < a) (hm : m.all (fun e => decide (c < e.1)) = true) :
    (Memory.put a v m).all (fun e => decide (c < e.1)) = true := by
  induction m with
  | nil => simp [Memory.put, h]
  | cons e m ih =>
    obtain ⟨e, w⟩ := e
    simp only [List.all_cons, Bool.and_eq_true, decide_eq_true_eq] at hm
    unfold Memory.put
    split_ifs with h1 h2
    · simp [h, hm.1]; simpa using hm.2
    · simp [h]; simpa using hm.2
    · simp only [List.all_cons, Bool.and_eq_true, decide_eq_true_eq]; exact ⟨hm.1, ih hm.2⟩

theorem Memory.all_unlist (m : Memory) (a c : Nat) (hm : m.all (fun e => decide (c < e.1)) = true) :
    (Memory.unlist a m).all (fun e => decide (c < e.1)) = true := by
  induction m with
  | nil => simp [Memory.unlist]
  | cons e m ih =>
    obtain ⟨e, w⟩ := e
    simp only [List.all_cons, Bool.and_eq_true, decide_eq_true_eq] at hm
    unfold Memory.unlist
    split_ifs
    · exact ih hm.2
    · simp only [List.all_cons, Bool.and_eq_true, decide_eq_true_eq]; exact ⟨hm.1, ih hm.2⟩

theorem Memory.wf_cons (a : Nat) (v : Byte) (m : Memory) : Memory.wf font ((a, v) :: m) = true ↔
    a < Config.memSize ∧ v ≠ resetByte font a ∧ m.all (fun c => decide (a < c.1)) = true ∧ Memory.wf font m = true := by
  simp only [Memory.wf, Bool.and_eq_true, decide_eq_true_eq, bne_iff_ne]; tauto

theorem Memory.wf_put (m : Memory) (a : Nat) (v : Byte) (ha : a < Config.memSize) (hv : v ≠ resetByte font a)
    (hm : Memory.wf font m = true) : Memory.wf font (Memory.put a v m) = true := by
  induction m with
  | nil => simp [Memory.put, Memory.wf, ha, hv]
  | cons c m ih =>
    obtain ⟨c, w⟩ := c
    have h := (Memory.wf_cons font c w m).1 hm
    unfold Memory.put
    split_ifs with h1 h2
    · refine (Memory.wf_cons font a v _).2 ⟨ha, hv, ?_, hm⟩
      simp only [List.all_cons, Bool.and_eq_true, decide_eq_true_eq, List.all_eq_true]
      refine ⟨h1, fun e he => ?_⟩
      have := List.all_eq_true.1 h.2.2.1 e he
      simp only [decide_eq_true_eq] at this
      omega
    · subst h2; exact (Memory.wf_cons font a v _).2 ⟨ha, hv, h.2.2.1, h.2.2.2⟩
    · exact (Memory.wf_cons font c w _).2 ⟨h.1, h.2.1, Memory.all_put m a c v (by omega) h.2.2.1, ih h.2.2.2⟩

theorem Memory.wf_unlist (m : Memory) (a : Nat) (hm : Memory.wf font m = true) :
    Memory.wf font (Memory.unlist a m) = true := by
  induction m with
  | nil => simp [Memory.unlist, Memory.wf]
  | cons c m ih =>
    obtain ⟨c, w⟩ := c
    have h := (Memory.wf_cons font c w m).1 hm
    unfold Memory.unlist
    split_ifs
    · exact ih h.2.2.2
    · exact (Memory.wf_cons font c w _).2 ⟨h.1, h.2.1, Memory.all_unlist m a c h.2.2.1, ih h.2.2.2⟩

/-- A write to a cell of the address space keeps the canonical form. -/
theorem Memory.wf_write (m : Memory) (a : Nat) (v : Byte) (ha : a < Config.memSize) (hm : Memory.wf font m = true) :
    Memory.wf font (Memory.write font m a v) = true := by
  unfold Memory.write
  split_ifs with h
  · exact Memory.wf_unlist font m a hm
  · exact Memory.wf_put font m a v ha h hm

/-- Equal memories are equal data: canonical memories that read alike are the same list. -/
theorem Memory.listed_of_wf (m : Memory) (hm : Memory.wf font m = true) (a : Nat) :
    Memory.listed a m = if Memory.read font m a = resetByte font a then none else some (Memory.read font m a) := by
  induction m with
  | nil => simp [Memory.listed, Memory.read]
  | cons c m ih =>
    obtain ⟨c, w⟩ := c
    have h := (Memory.wf_cons font c w m).1 hm
    by_cases e : a = c
    · subst e; simp [Memory.listed, Memory.read, h.2.1]
    · have := ih h.2.2.2
      simp only [Memory.read, Memory.listed, e, if_false] at this ⊢
      exact this

theorem Memory.listed_none_of_all (m : Memory) (a : Nat) (h : m.all (fun c => decide (a < c.1)) = true) (b : Nat) (hb : b ≤ a) :
    Memory.listed b m = none := by
  induction m with
  | nil => rfl
  | cons c m ih =>
    obtain ⟨c, w⟩ := c
    simp only [List.all_cons, Bool.and_eq_true, decide_eq_true_eq] at h
    simp only [Memory.listed]; rw [if_neg (by omega)]; exact ih h.2

theorem Memory.eq_of_listed (m m' : Memory) (hm : Memory.wf font m = true) (hm' : Memory.wf font m' = true)
    (h : ∀ a, Memory.listed a m = Memory.listed a m') : m = m' := by
  induction m generalizing m' with
  | nil =>
    cases m' with
    | nil => rfl
    | cons c' m' => have := h c'.1; simp [Memory.listed] at this
  | cons c m ih =>
    obtain ⟨c, w⟩ := c
    have k := (Memory.wf_cons font c w m).1 hm
    cases m' with
    | nil => have := h c; simp [Memory.listed] at this
    | cons c' m' =>
      obtain ⟨c', w'⟩ := c'
      have k' := (Memory.wf_cons font c' w' m').1 hm'
      have e : c = c' := by
        by_contra ne
        rcases Nat.lt_or_gt_of_ne ne with lt | lt
        · have := h c
          rw [Memory.listed, if_pos rfl, Memory.listed, if_neg ne, Memory.listed_none_of_all m' c' k'.2.2.1 c (by omega)] at this
          cases this
        · have := h c'
          rw [Memory.listed, if_neg (by omega), Memory.listed, if_pos rfl, Memory.listed_none_of_all m c k.2.2.1 c' (by omega)] at this
          cases this
      subst e
      have ew : w = w' := by simpa [Memory.listed] using h c
      subst ew
      congr 1
      refine ih m' k.2.2.2 k'.2.2.2 fun a => ?_
      by_cases ha : a ≤ c
      · rw [Memory.listed_none_of_all m c k.2.2.1 a ha, Memory.listed_none_of_all m' c k'.2.2.1 a ha]
      · have := h a
        simpa [Memory.listed, show a ≠ c by omega] using this

/-- Canonical memories that read alike are equal. -/
theorem Memory.eq_of_read (m m' : Memory) (hm : Memory.wf font m = true) (hm' : Memory.wf font m' = true)
    (h : ∀ a, Memory.read font m a = Memory.read font m' a) : m = m' :=
  Memory.eq_of_listed font m m' hm hm' fun a => by
    rw [Memory.listed_of_wf font m hm, Memory.listed_of_wf font m' hm', h]

variable (s : State)

/-- A read after a write, on the state. -/
@[simp] theorem State.readMem_writeMem (a b : Nat) (v : Byte) :
    (s.writeMem a v).readMem b = if b = a then v else s.readMem b :=
  Memory.read_write s.font s.memory a b v

/-- A block store changes only memory. -/
theorem State.writeBytes_eq (a : Nat) (bs : List Byte) : s.writeBytes a bs = { s with memory := (s.writeBytes a bs).memory } := by
  induction bs generalizing s a with
  | nil => rfl
  | cons b bs ih => rw [State.writeBytes, ih]; rfl

@[simp] theorem State.writeBytes_v (a : Nat) (bs : List Byte) : (s.writeBytes a bs).v = s.v := by rw [State.writeBytes_eq]
@[simp] theorem State.writeBytes_i (a : Nat) (bs : List Byte) : (s.writeBytes a bs).i = s.i := by rw [State.writeBytes_eq]
@[simp] theorem State.writeBytes_pc (a : Nat) (bs : List Byte) : (s.writeBytes a bs).pc = s.pc := by rw [State.writeBytes_eq]
@[simp] theorem State.writeBytes_stack (a : Nat) (bs : List Byte) : (s.writeBytes a bs).stack = s.stack := by rw [State.writeBytes_eq]
@[simp] theorem State.writeBytes_sp (a : Nat) (bs : List Byte) : (s.writeBytes a bs).sp = s.sp := by rw [State.writeBytes_eq]
@[simp] theorem State.writeBytes_dt (a : Nat) (bs : List Byte) : (s.writeBytes a bs).dt = s.dt := by rw [State.writeBytes_eq]
@[simp] theorem State.writeBytes_st (a : Nat) (bs : List Byte) : (s.writeBytes a bs).st = s.st := by rw [State.writeBytes_eq]
@[simp] theorem State.writeBytes_fb (a : Nat) (bs : List Byte) : (s.writeBytes a bs).fb = s.fb := by rw [State.writeBytes_eq]
@[simp] theorem State.writeBytes_keys (a : Nat) (bs : List Byte) : (s.writeBytes a bs).keys = s.keys := by rw [State.writeBytes_eq]
@[simp] theorem State.writeBytes_faultCause (a : Nat) (bs : List Byte) : (s.writeBytes a bs).faultCause = s.faultCause := by
  rw [State.writeBytes_eq]
@[simp] theorem State.writeBytes_font (a : Nat) (bs : List Byte) : (s.writeBytes a bs).font = s.font := by rw [State.writeBytes_eq]
@[simp] theorem State.writeBytes_rnd (a : Nat) (bs : List Byte) : (s.writeBytes a bs).rnd = s.rnd := by rw [State.writeBytes_eq]
@[simp] theorem State.writeBytes_draws (a : Nat) (bs : List Byte) : (s.writeBytes a bs).draws = s.draws := by rw [State.writeBytes_eq]
@[simp] theorem State.writeBytes_hostEvents (a : Nat) (bs : List Byte) : (s.writeBytes a bs).hostEvents = s.hostEvents := by
  rw [State.writeBytes_eq]
@[simp] theorem State.writeBytes_getV (a : Nat) (bs : List Byte) (r : Nibble) : (s.writeBytes a bs).getV r = s.getV r := by
  rw [State.writeBytes_eq]; rfl

/-- A read after a block store: byte `b - a` of the block within it, the old content elsewhere. -/
theorem State.readMem_writeBytes (a b : Nat) (bs : List Byte) :
    (s.writeBytes a bs).readMem b = if a ≤ b ∧ b < a + bs.length then bs.getD (b - a) 0 else s.readMem b := by
  induction bs generalizing s a with
  | nil => rw [if_neg (by simp only [List.length_nil]; omega)]; rfl
  | cons c bs ih =>
    rw [State.writeBytes, ih]
    simp only [State.readMem_writeMem, List.length_cons]
    by_cases h : b = a
    · subst h; rw [if_neg (by omega), if_pos rfl, if_pos (by omega)]; simp
    · by_cases h2 : a + 1 ≤ b ∧ b < a + 1 + bs.length
      · rw [if_pos h2, if_pos (by omega)]
        obtain ⟨k, rfl⟩ : ∃ k, b = a + 1 + k := ⟨b - (a + 1), by omega⟩
        rw [show a + 1 + k - (a + 1) = k by omega, show a + 1 + k - a = k + 1 by omega]; simp
      · rw [if_neg h2, if_neg h, if_neg (by omega)]

/-- A block store within the address space keeps the canonical form. -/
theorem State.wf_writeBytes (a : Nat) (bs : List Byte) (h : a + bs.length ≤ Config.memSize)
    (hm : Memory.wf s.font s.memory = true) : Memory.wf s.font (s.writeBytes a bs).memory = true := by
  induction bs generalizing s a with
  | nil => exact hm
  | cons c bs ih =>
    rw [State.writeBytes]
    simp only [List.length_cons] at h
    exact ih (s.writeMem a c) (a + 1) (by omega) (Memory.wf_write s.font s.memory a c (by omega) hm)

end Sys2Proof.Machine
end

