-- ==== Sys2Proof/Laws/Ops.lean ====
section
/-! SUPPORT. One lemma per shared operation that says what it can do; later proofs cite these and do not unfold the operation. -/

namespace Sys2Proof.Machine

variable (s : State)

@[simp] theorem State.faulted_eq_false : s.faulted = false ↔ s.faultCause = 0 := by simp [State.faulted]

@[simp] theorem State.faulted_eq_true : s.faulted = true ↔ s.faultCause ≠ 0 := by simp [State.faulted]

@[simp] theorem Cause.code_eq_zero (c : Cause) : (c.code = 0#3) = False := by cases c <;> decide

theorem Cause.code_ne_zero (c : Cause) : c.code ≠ 0 := by cases c <;> decide

/-- The range check (R57), with its last address over the numbers. -/
theorem cellsInRange_iff (base n : Nat) : cellsInRange base n = true ↔ n = 0 ∨ base + n - 1 ≤ 0xFFF := by
  simp only [cellsInRange, Bool.or_eq_true, beq_iff_eq, decide_eq_true_eq]; omega

/-- Blocks of one cell or more that pass the check lie in the address space. -/
theorem le_of_cellsInRange {base n : Nat} (h : cellsInRange base (n + 1) = true) : base + (n + 1) ≤ Config.memSize := by
  rw [cellsInRange_iff] at h; simp only [Config.memSize]; omega

theorem State.checked_of_true {ok : Bool} {c : Cause} {t : State} (h : ok = true) : s.checked ok c t = .next t := by
  simp [State.checked, h]

theorem State.checked_of_false {ok : Bool} {c : Cause} {t : State} (h : ok = false) : s.checked ok c t = .next (s.raise c) := by
  simp [State.checked, h]

/-- A checked effect answers its effect when the check holds, else the fault. -/
theorem State.checked_cases {ok : Bool} {c : Cause} {t u : State} (h : s.checked ok c t = .next u) :
    (ok = true ∧ u = t) ∨ (ok = false ∧ u = s.raise c) := by
  cases ok
  · exact .inr ⟨rfl, by simpa [State.checked] using h.symm⟩
  · exact .inl ⟨rfl, by simpa [State.checked] using h.symm⟩

/-- A call: it overflows at 16, it pushes below 16, and it stops above (R102, R25). -/
theorem State.callTo_of_full {a : Word} (h : s.sp = 16) : s.callTo a = .next (s.raise .stackOverflow) := by
  simp [State.callTo, h]

theorem State.callTo_of_room {a : Word} (h : s.sp.toNat < 16) :
    s.callTo a = .next { s with stack := s.stack.set s.sp.toNat s.pc h, sp := s.sp + 1, pc := a } := by
  have : s.sp ≠ 16 := fun e => by rw [e] at h; exact absurd h (by decide)
  rw [State.callTo, if_neg this, dif_pos h]

theorem State.callTo_of_above {a : Word} (h : 16 < s.sp.toNat) : s.callTo a = .fault .stackPointerIllegal := by
  have : s.sp ≠ 16 := fun e => by rw [e] at h; exact absurd h (by decide)
  rw [State.callTo, if_neg this, dif_neg (by omega)]

theorem State.callTo_cases {a : Word} {u : State} (h : s.callTo a = .next u) :
    (s.sp = 16 ∧ u = s.raise .stackOverflow)
    ∨ ∃ hs : s.sp.toNat < 16, u = { s with stack := s.stack.set s.sp.toNat s.pc hs, sp := s.sp + 1, pc := a } := by
  rcases Nat.lt_trichotomy s.sp.toNat 16 with hs | hs | hs
  · rw [s.callTo_of_room hs] at h; cases h; exact .inr ⟨hs, rfl⟩
  · have e : s.sp = 16 := BitVec.eq_of_toNat_eq hs
    rw [s.callTo_of_full e] at h; cases h; exact .inl ⟨e, rfl⟩
  · rw [s.callTo_of_above hs] at h; cases h

/-- A return: it underflows at 0, it pops up to 16, and it stops above (R100, R25). -/
theorem State.returnFromCall_of_empty (h : s.sp = 0) : s.returnFromCall = .next (s.raise .stackUnderflow) := by
  simp [State.returnFromCall, h]

theorem State.returnFromCall_of_entry (k : Fin 16) (h : s.sp.toNat = k.val + 1) :
    s.returnFromCall = .next { s with sp := s.sp - 1, pc := s.stack[k] + 2 } := by
  have : s.sp ≠ 0 := fun e => by rw [e] at h; simp at h
  rw [State.returnFromCall, if_neg this, dif_pos (by omega)]; simp only [h, Nat.add_sub_cancel]; rfl

theorem State.returnFromCall_of_above (h : 16 < s.sp.toNat) : s.returnFromCall = .fault .stackPointerIllegal := by
  have : s.sp ≠ 0 := fun e => by rw [e] at h; exact absurd h (by decide)
  rw [State.returnFromCall, if_neg this, dif_neg (by omega)]

theorem State.returnFromCall_cases {u : State} (h : s.returnFromCall = .next u) :
    (s.sp = 0 ∧ u = s.raise .stackUnderflow)
    ∨ ∃ k : Fin 16, s.sp.toNat = k.val + 1 ∧ u = { s with sp := s.sp - 1, pc := s.stack[k] + 2 } := by
  by_cases h0 : s.sp = 0
  · rw [s.returnFromCall_of_empty h0] at h; cases h; exact .inl ⟨h0, rfl⟩
  · have pos : s.sp.toNat ≠ 0 := fun e => h0 (BitVec.eq_of_toNat_eq e)
    by_cases h1 : s.sp.toNat - 1 < 16
    · rw [s.returnFromCall_of_entry ⟨s.sp.toNat - 1, h1⟩ (by simp only; omega)] at h
      cases h; exact .inr ⟨⟨s.sp.toNat - 1, h1⟩, by simp only; omega, rfl⟩
    · rw [s.returnFromCall_of_above (by omega)] at h; cases h

/-- The key that a byte names (R150). -/
theorem keyNumber_of_lt {b : Byte} {k : Nibble} (h : b.toNat = k.val) : keyNumber b = some k := by
  have : b.toNat < 16 := by omega
  simp only [keyNumber, this, dite_true, Option.some.injEq]; exact Fin.ext h

theorem keyNumber_of_ge {b : Byte} (h : 15 < b.toNat) : keyNumber b = none := by
  simp only [keyNumber, show ¬ b.toNat < 16 by omega, dite_false]

/-- The key skips (R150, R151): a skip on the key's level, or the fault. -/
theorem State.skipOnKey_cases {b : Byte} {d : Bool} {u : State} (h : s.skipOnKey b d = .next u) :
    (∃ k : Nibble, b.toNat = k.val ∧ u = s.skipIf (s.key k == d)) ∨ (15 < b.toNat ∧ u = s.raise .keyIndexOutOfRange) := by
  by_cases hb : b.toNat < 16
  · have e := keyNumber_of_lt (b := b) (k := ⟨b.toNat, hb⟩) rfl
    simp only [State.skipOnKey, e] at h; cases h; exact .inl ⟨⟨b.toNat, hb⟩, rfl, rfl⟩
  · have e := keyNumber_of_ge (b := b) (by omega)
    simp only [State.skipOnKey, e] at h; cases h; exact .inr ⟨by omega, rfl⟩

/-- The scan for a pressed key finds the least one (R152). -/
theorem State.firstKeyDown_eq_some {k : Nibble} (h : s.key k = true) (hk : ∀ j, j < k → s.key j = false) :
    s.firstKeyDown = some k := by
  unfold State.firstKeyDown
  rw [List.find?_eq_some_iff_getElem]
  refine ⟨h, k.val, by simp, by simp, fun j hj => ?_⟩
  simp [hk ⟨j, by omega⟩ hj]

theorem State.firstKeyDown_eq_none : s.firstKeyDown = none ↔ ∀ k, s.key k = false := by
  simp [State.firstKeyDown]

/-- The fetch (R71). -/
theorem State.fetch_of_le (h : s.pc.toNat ≤ 4094) :
    s.fetch = .ok (joinBytes (s.readMem s.pc.toNat) (s.readMem (s.pc.toNat + 1))) := by
  simp [State.fetch, Config.lastFetchPc, show ¬ 4094 < s.pc.toNat by omega]

theorem State.fetch_of_gt (h : 4094 < s.pc.toNat) : s.fetch = .error .pcOutOfRange := by
  simp [State.fetch, Config.lastFetchPc, h]

/-- The three ways a fetch and decode can go (R70). -/
theorem State.fetchDecode_cases :
    (4094 < s.pc.toNat ∧ s.fetchDecode = .error .pcOutOfRange)
    ∨ (s.pc.toNat ≤ 4094 ∧ (∃ e, decode (joinBytes (s.readMem s.pc.toNat) (s.readMem (s.pc.toNat + 1))) = .error e)
        ∧ s.fetchDecode = .error .unknownOpcode)
    ∨ (s.pc.toNat ≤ 4094 ∧ ∃ i, decode (joinBytes (s.readMem s.pc.toNat) (s.readMem (s.pc.toNat + 1))) = .ok i
        ∧ s.fetchDecode = .ok i) := by
  by_cases h : s.pc.toNat ≤ 4094
  · cases hd : decode (joinBytes (s.readMem s.pc.toNat) (s.readMem (s.pc.toNat + 1))) with
    | error e => exact .inr (.inl ⟨h, ⟨e, rfl⟩, by simp [State.fetchDecode, s.fetch_of_le h, hd]⟩)
    | ok i => exact .inr (.inr ⟨h, i, rfl, by simp [State.fetchDecode, s.fetch_of_le h, hd]⟩)
  · exact .inl ⟨by omega, by simp [State.fetchDecode, s.fetch_of_gt (by omega)]⟩

end Sys2Proof.Machine
end

