-- ==== Sys2Proof/Laws/Exec.lean ====
section
/-! SUPPORT. What an instruction can do, said once: when it raises a fault and which, what else it leaves of `fault_cause`, and the invariant. -/

namespace Sys2Proof.Machine

variable {s t : State}

/-- `Fx0A` (R152): the scan finds a key, or nothing happens. -/
theorem execLdVxKey_cases {x : Nibble} (h : execLdVxKey x s = .next t) :
    (∃ k, s.firstKeyDown = some k ∧ s.key k = true ∧ t = (s.setV x (BitVec.ofNat 8 k.val)).advance)
    ∨ ((∀ k, s.key k = false) ∧ t = s) := by
  unfold execLdVxKey at h
  split at h <;> cases h
  · rename_i k hk
    exact .inl ⟨k, hk, by simpa using List.find?_some hk, rfl⟩
  · rename_i hk
    exact .inr ⟨s.firstKeyDown_eq_none.1 hk, rfl⟩

/-- The execute-stage fault of an instruction (R161, R170), if it raises one. -/
def faultOf (s : State) : Instr → Option Cause
  | .call _ => if s.sp = 16 then some .stackOverflow else none
  | .ret => if s.sp = 0 then some .stackUnderflow else none
  | .drw _ _ n => if cellsInRange s.base n.val then none else some .memAddressOutOfRange
  | .ldBcd _ => if cellsInRange s.base 3 then none else some .memAddressOutOfRange
  | .storeRegs x => if cellsInRange s.base (x.val + 1) then none else some .memAddressOutOfRange
  | .loadRegs x => if cellsInRange s.base (x.val + 1) then none else some .memAddressOutOfRange
  | .skp x => if (s.getV x).toNat < 16 then none else some .keyIndexOutOfRange
  | .sknp x => if (s.getV x).toNat < 16 then none else some .keyIndexOutOfRange
  | _ => none

/-- An instruction that raises a fault changes nothing but `fault_cause` (R162, R163); any other leaves `fault_cause` as it is. -/
theorem exec_faultOf {i : Instr} (h : exec i s = .next t) :
    (∃ c, faultOf s i = some c ∧ t = s.raise c) ∨ (faultOf s i = none ∧ t.faultCause = s.faultCause) := by
  cases i
  case call nnn =>
    rcases s.callTo_cases h with ⟨e, rfl⟩ | ⟨e, rfl⟩
    · exact .inl ⟨_, by simp [faultOf, e], rfl⟩
    · have : s.sp ≠ 16 := fun e' => by rw [e'] at e; exact absurd e (by decide)
      exact .inr ⟨if_neg this, rfl⟩
  case ret =>
    rcases s.returnFromCall_cases h with ⟨e, rfl⟩ | ⟨k, e, rfl⟩
    · exact .inl ⟨_, by simp [faultOf, e], rfl⟩
    · have : s.sp ≠ 0 := fun e' => by rw [e'] at e; simp at e
      exact .inr ⟨if_neg this, rfl⟩
  case skp x =>
    rcases s.skipOnKey_cases h with ⟨k, e, rfl⟩ | ⟨e, rfl⟩
    · exact .inr ⟨if_pos (by omega), rfl⟩
    · exact .inl ⟨_, if_neg (by omega), rfl⟩
  case sknp x =>
    rcases s.skipOnKey_cases h with ⟨k, e, rfl⟩ | ⟨e, rfl⟩
    · exact .inr ⟨if_pos (by omega), rfl⟩
    · exact .inl ⟨_, if_neg (by omega), rfl⟩
  case ldVxKey x =>
    rcases execLdVxKey_cases h with ⟨k, -, -, rfl⟩ | ⟨-, rfl⟩ <;> exact .inr ⟨rfl, rfl⟩
  case drw x y n =>
    rcases s.checked_cases h with ⟨e, rfl⟩ | ⟨e, rfl⟩
    · exact .inr ⟨if_pos e, rfl⟩
    · exact .inl ⟨_, by simp [faultOf, e], rfl⟩
  case ldBcd x =>
    rcases s.checked_cases h with ⟨e, rfl⟩ | ⟨e, rfl⟩
    · exact .inr ⟨if_pos e, by simp⟩
    · exact .inl ⟨_, by simp [faultOf, e], rfl⟩
  case storeRegs x =>
    rcases s.checked_cases h with ⟨e, rfl⟩ | ⟨e, rfl⟩
    · exact .inr ⟨if_pos e, by simp⟩
    · exact .inl ⟨_, by simp [faultOf, e], rfl⟩
  case loadRegs x =>
    rcases s.checked_cases h with ⟨e, rfl⟩ | ⟨e, rfl⟩
    · exact .inr ⟨if_pos e, rfl⟩
    · exact .inl ⟨_, by simp [faultOf, e], rfl⟩
  all_goals (cases h; exact .inr ⟨rfl, rfl⟩)

/-- Only `2nnn` and `00EE` can stop, and only with a pointer above 16 (log 6). -/
theorem exec_answers (i : Instr) (s : State) (h : s.sp.toNat ≤ 16) : ∃ t, exec i s = .next t := by
  cases i
  case call nnn =>
    rcases Nat.lt_or_ge s.sp.toNat 16 with e | e
    · exact ⟨_, s.callTo_of_room e⟩
    · exact ⟨_, s.callTo_of_full (BitVec.eq_of_toNat_eq (Nat.le_antisymm h e))⟩
  case ret =>
    by_cases e : s.sp.toNat = 0
    · exact ⟨_, s.returnFromCall_of_empty (BitVec.eq_of_toNat_eq e)⟩
    · exact ⟨_, s.returnFromCall_of_entry ⟨s.sp.toNat - 1, by omega⟩ (by simp only; omega)⟩
  case skp x =>
    simp only [exec, execSkp, State.skipOnKey]; split <;> exact ⟨_, rfl⟩
  case sknp x =>
    simp only [exec, execSknp, State.skipOnKey]; split <;> exact ⟨_, rfl⟩
  case ldVxKey x =>
    simp only [exec, execLdVxKey]; split <;> exact ⟨_, rfl⟩
  all_goals exact ⟨_, rfl⟩

theorem Cause.code_le (c : Cause) : c.code.toNat ≤ 6 := by cases c <;> decide

theorem State.Inv.raise {c : Cause} (h : s.Inv) : (s.raise c).Inv := ⟨h.memory, h.sp, h.stack, h.pc, c.code_le⟩

/-- A state that differs from one of the invariant only where the invariant looks at nothing but `pc`. -/
theorem State.Inv.of_pc (h : s.Inv) (hm : t.memory = s.memory) (hf : t.font = s.font) (hs : t.sp = s.sp) (hk : t.stack = s.stack)
    (hc : t.faultCause = s.faultCause) (hp : t.pc.toNat ≤ 0x10FE) : t.Inv :=
  ⟨by rw [hm, hf]; exact h.memory, by rw [hs]; exact h.sp, by rw [hk]; exact h.stack, hp, by rw [hc]; exact h.cause⟩

theorem toNat_add_two (a : Word) (h : a.toNat ≤ 4094) : (a + 2).toNat = a.toNat + 2 := by
  rw [BitVec.toNat_add]; simp; omega

theorem toNat_add_four (a : Word) (h : a.toNat ≤ 4094) : (a + 4).toNat = a.toNat + 4 := by
  rw [BitVec.toNat_add]; simp; omega

theorem State.Inv.advance (h : s.Inv) (hp : s.pc.toNat ≤ 4094) (hm : t.memory = s.memory) (hf : t.font = s.font) (hs : t.sp = s.sp)
    (hk : t.stack = s.stack) (hc : t.faultCause = s.faultCause) (hpc : t.pc = s.pc + 2) : t.Inv :=
  h.of_pc hm hf hs hk hc (by rw [hpc, toNat_add_two _ hp]; omega)

theorem State.Inv.skipIf (h : s.Inv) (hp : s.pc.toNat ≤ 4094) (c : Bool) : (s.skipIf c).Inv :=
  h.of_pc rfl rfl rfl rfl rfl (by
    rw [State.skipIf_pc]; split
    · rw [toNat_add_four _ hp]; omega
    · rw [toNat_add_two _ hp]; omega)

theorem State.Inv.store (h : s.Inv) (hp : s.pc.toNat ≤ 4094) (bs : List Byte) {n : Nat} (hn : bs.length = n + 1)
    (hc : cellsInRange s.base (n + 1) = true) : (s.writeBytes s.base bs).advance.Inv := by
  refine ⟨?_, by simpa using h.sp, by simpa using h.stack, ?_, by simpa using h.cause⟩
  · have := s.wf_writeBytes s.base bs (by rw [hn]; exact le_of_cellsInRange hc) h.memory
    simpa using this
  · rw [State.advance_pc, State.writeBytes_pc, toNat_add_two _ hp]; omega

end Sys2Proof.Machine
end

