-- ==== Sys2Proof/Laws/PerInstr.lean ====
section
/-! SUPPORT. A family of facts about each instruction as syntax: its word decodes to it. -/

namespace Sys2Proof.Laws.EncodeRoundTrip

/-- The word of the instruction decodes to the instruction, every operand kept (R74, R75, R76). -/
def Statement (i : Instr) : Prop := decode (encode i) = .ok i

theorem cls : Statement (.cls) := rfl
theorem ret : Statement (.ret) := rfl
theorem jp (nnn : BitVec 12) : Statement (.jp nnn) := by simp [Statement, encode, decode]
theorem call (nnn : BitVec 12) : Statement (.call nnn) := by simp [Statement, encode, decode]
theorem seImm (x : Nibble) (kk : Byte) : Statement (.seImm x kk) := by simp [Statement, encode, decode]
theorem sneImm (x : Nibble) (kk : Byte) : Statement (.sneImm x kk) := by simp [Statement, encode, decode]
theorem seReg (x : Nibble) (y : Nibble) : Statement (.seReg x y) := by simp [Statement, encode, decode]
theorem ldImm (x : Nibble) (kk : Byte) : Statement (.ldImm x kk) := by simp [Statement, encode, decode]
theorem addImm (x : Nibble) (kk : Byte) : Statement (.addImm x kk) := by simp [Statement, encode, decode]
theorem ldReg (x : Nibble) (y : Nibble) : Statement (.ldReg x y) := by simp [Statement, encode, decode, decode8]
theorem orReg (x : Nibble) (y : Nibble) : Statement (.orReg x y) := by simp [Statement, encode, decode, decode8]
theorem andReg (x : Nibble) (y : Nibble) : Statement (.andReg x y) := by simp [Statement, encode, decode, decode8]
theorem xorReg (x : Nibble) (y : Nibble) : Statement (.xorReg x y) := by simp [Statement, encode, decode, decode8]
theorem addReg (x : Nibble) (y : Nibble) : Statement (.addReg x y) := by simp [Statement, encode, decode, decode8]
theorem subReg (x : Nibble) (y : Nibble) : Statement (.subReg x y) := by simp [Statement, encode, decode, decode8]
theorem shr (x : Nibble) (y : Nibble) : Statement (.shr x y) := by simp [Statement, encode, decode, decode8]
theorem subn (x : Nibble) (y : Nibble) : Statement (.subn x y) := by simp [Statement, encode, decode, decode8]
theorem shl (x : Nibble) (y : Nibble) : Statement (.shl x y) := by simp [Statement, encode, decode, decode8]
theorem sneReg (x : Nibble) (y : Nibble) : Statement (.sneReg x y) := by simp [Statement, encode, decode]
theorem ldI (nnn : BitVec 12) : Statement (.ldI nnn) := by simp [Statement, encode, decode]
theorem jpV0 (nnn : BitVec 12) : Statement (.jpV0 nnn) := by simp [Statement, encode, decode]
theorem rnd (x : Nibble) (kk : Byte) : Statement (.rnd x kk) := by simp [Statement, encode, decode]
theorem drw (x : Nibble) (y : Nibble) (n : Nibble) : Statement (.drw x y n) := by simp [Statement, encode, decode]
theorem skp (x : Nibble) : Statement (.skp x) := by simp [Statement, encode, decode, decodeE]
theorem sknp (x : Nibble) : Statement (.sknp x) := by simp [Statement, encode, decode, decodeE]
theorem ldVxDt (x : Nibble) : Statement (.ldVxDt x) := by simp [Statement, encode, decode, decodeF]
theorem ldVxKey (x : Nibble) : Statement (.ldVxKey x) := by simp [Statement, encode, decode, decodeF]
theorem ldDtVx (x : Nibble) : Statement (.ldDtVx x) := by simp [Statement, encode, decode, decodeF]
theorem ldStVx (x : Nibble) : Statement (.ldStVx x) := by simp [Statement, encode, decode, decodeF]
theorem addI (x : Nibble) : Statement (.addI x) := by simp [Statement, encode, decode, decodeF]
theorem ldFont (x : Nibble) : Statement (.ldFont x) := by simp [Statement, encode, decode, decodeF]
theorem ldBcd (x : Nibble) : Statement (.ldBcd x) := by simp [Statement, encode, decode, decodeF]
theorem storeRegs (x : Nibble) : Statement (.storeRegs x) := by simp [Statement, encode, decode, decodeF]
theorem loadRegs (x : Nibble) : Statement (.loadRegs x) := by simp [Statement, encode, decode, decodeF]

end Sys2Proof.Laws.EncodeRoundTrip
end

