-- ==== Sys2Proof/Laws/Step.lean ====
section
/-! SUPPORT. What a STEP and the other events can do, said once. -/

namespace Sys2Proof.Machine

variable {s t : State}

/-- A STEP of a core that has not faulted (R70): the fault of its fetch or decode, or the execution of what it decoded. -/
theorem State.stepEvent_cases {r : Byte} (hs : s.faultCause = 0) (h : s.stepEvent r = .next t) :
    (∃ c, s.fetchDecode = .error c ∧ t = (s.setRnd r).raise c) ∨ ∃ i, s.fetchDecode = .ok i ∧ exec i (s.setRnd r) = .next t := by
  have hf : s.faulted = false := by simpa using hs
  simp only [State.stepEvent, hf, Bool.false_eq_true, if_false] at h
  split at h
  · rename_i c hc; cases h; exact .inl ⟨c, hc, rfl⟩
  · rename_i i hi; exact .inr ⟨i, hi, h⟩

/-- The machine's step is one event, on a state that differs at most in the model's own schedule and draw counter (logs 3, 4). -/
theorem step_event (s : State) : ∃ (d : Nat) (es : List Event) (e : Event), step s = State.event { s with draws := d, hostEvents := es } e := by
  unfold step
  split
  · rename_i e es h; exact ⟨s.draws, es, e, rfl⟩
  · exact ⟨s.draws + 1, s.hostEvents, .step (Config.randomByte s.draws), rfl⟩

/-- Counting down by one, floored at 0 (R180). -/
theorem countDown_toNat (b : Byte) : (countDown b).toNat = b.toNat - 1 := by
  unfold countDown
  split
  · rename_i h; subst h; rfl
  · rename_i h
    have : b.toNat ≠ 0 := fun e => h (BitVec.eq_of_toNat_eq e)
    rw [BitVec.toNat_sub]; simp; omega

/-- TICK of a core that has not faulted (R180). -/
theorem State.tickEvent_of_running (h : s.faultCause = 0) : s.tickEvent = { s with dt := countDown s.dt, st := countDown s.st } := by
  have hf : s.faulted = false := by simpa using h
  simp only [State.tickEvent, hf, Bool.false_eq_true, if_false]; rfl

/-- The timers and a store do not touch each other. -/
theorem State.writeBytes_timers (s : State) (d d' : Byte) (a : Nat) (bs : List Byte) :
    State.writeBytes { s with dt := d, st := d' } a bs = { s.writeBytes a bs with dt := d, st := d' } := by
  induction bs generalizing s a with
  | nil => rfl
  | cons b bs ih => exact ih (s.writeMem a b) (a + 1)

@[simp] theorem addressOf_toNat (nnn : BitVec 12) : (addressOf nnn).toNat = nnn.toNat := by simp [addressOf]; omega

@[simp] theorem widen_toNat (b : Byte) : (widen b).toNat = b.toNat := by simp [widen]; omega

/-- A word is the join of the two bytes that make it (R53). -/
theorem eq_joinBytes {w : Word} {a b : Byte} (h : w.toNat = a.toNat * 256 + b.toNat) : w = joinBytes a b :=
  BitVec.eq_of_toNat_eq (by rw [joinBytes_toNat]; exact h)

end Sys2Proof.Machine
end

