-- ==== Sys2Proof/Tests/Slice0.lean ====
section
/-! SUPPORT. Tests with expected results from the spec: the words of its opcode map, the one-step vectors of spec/95_test_vectors.md (their ids stand in the
docstrings), and a witness for the hypotheses of every obligation that has any. -/

namespace Sys2Proof.Tests

open Sys2Proof.Machine

/-! ### Ill-formed words: one for each check (R82, vectors E6 to E14) -/

theorem test_wellFormed_refuses_category_0 : wellFormedWord 0x0000 = false ∧ wellFormedWord 0x00E1 = false ∧ wellFormedWord 0x0123 = false := by decide
theorem test_wellFormed_refuses_category_5 : wellFormedWord 0x5121 = false ∧ wellFormedWord 0x512F = false := by decide
theorem test_wellFormed_refuses_category_8 : wellFormedWord 0x8128 = false ∧ wellFormedWord 0x812D = false ∧ wellFormedWord 0x812F = false := by decide
theorem test_wellFormed_refuses_category_9 : wellFormedWord 0x9AB5 = false ∧ wellFormedWord 0x9AB1 = false := by decide
theorem test_wellFormed_refuses_category_E : wellFormedWord 0xE19F = false ∧ wellFormedWord 0xE1A0 = false := by decide
theorem test_wellFormed_refuses_category_F : wellFormedWord 0xF100 = false ∧ wellFormedWord 0xF175 = false := by decide
theorem test_wellFormed_accepts : wellFormedWord 0x00E0 = true ∧ wellFormedWord 0x5120 = true ∧ wellFormedWord 0x812E = true
    ∧ wellFormedWord 0x9AB0 = true ∧ wellFormedWord 0xE1A1 = true ∧ wellFormedWord 0xF165 = true := by decide
theorem test_decode_names_the_illegal_family : decode 0x00E1 = .error .illegal0 ∧ decode 0x5121 = .error .illegal5 ∧ decode 0x8128 = .error .illegal8
    ∧ decode 0x9AB5 = .error .illegal9 ∧ decode 0xE19F = .error .illegalE ∧ decode 0xF175 = .error .illegalF
    ∧ decodeBytes [0x12] = .error .truncated := by decide

/-! ### Every constructor's word, from the patterns of R78 -/

theorem test_decode_cls : decode 0x00E0 = .ok .cls := by decide
theorem test_decode_ret : decode 0x00EE = .ok .ret := by decide
theorem test_decode_jp : decode 0x1ABC = .ok (.jp 0xABC) := by decide
theorem test_decode_call : decode 0x2400 = .ok (.call 0x400) := by decide
theorem test_decode_seImm : decode 0x3244 = .ok (.seImm 2 0x44) := by decide
theorem test_decode_sneImm : decode 0x42F4 = .ok (.sneImm 2 0xF4) := by decide
theorem test_decode_seReg : decode 0x5120 = .ok (.seReg 1 2) := by decide
theorem test_decode_ldImm : decode 0x6A2C = .ok (.ldImm 10 0x2C) := by decide
theorem test_decode_addImm : decode 0x71FF = .ok (.addImm 1 0xFF) := by decide
theorem test_decode_ldReg : decode 0x8120 = .ok (.ldReg 1 2) := by decide
theorem test_decode_orReg : decode 0x8A31 = .ok (.orReg 10 3) := by decide
theorem test_decode_andReg : decode 0x80F2 = .ok (.andReg 0 15) := by decide
theorem test_decode_xorReg : decode 0x8F53 = .ok (.xorReg 15 5) := by decide
theorem test_decode_addReg : decode 0x8334 = .ok (.addReg 3 3) := by decide
theorem test_decode_subReg : decode 0x80F5 = .ok (.subReg 0 15) := by decide
theorem test_decode_shr : decode 0x8076 = .ok (.shr 0 7) := by decide
theorem test_decode_subn : decode 0x8F17 = .ok (.subn 15 1) := by decide
theorem test_decode_shl : decode 0x807E = .ok (.shl 0 7) := by decide
theorem test_decode_sneReg : decode 0x9120 = .ok (.sneReg 1 2) := by decide
theorem test_decode_ldI : decode 0xA20C = .ok (.ldI 0x20C) := by decide
theorem test_decode_jpV0 : decode 0xBFFF = .ok (.jpV0 0xFFF) := by decide
theorem test_decode_rnd : decode 0xC30F = .ok (.rnd 3 0x0F) := by decide
theorem test_decode_drw : decode 0xD12F = .ok (.drw 1 2 15) := by decide
theorem test_decode_skp : decode 0xE19E = .ok (.skp 1) := by decide
theorem test_decode_sknp : decode 0xE2A1 = .ok (.sknp 2) := by decide
theorem test_decode_ldVxDt : decode 0xF307 = .ok (.ldVxDt 3) := by decide
theorem test_decode_ldVxKey : decode 0xF30A = .ok (.ldVxKey 3) := by decide
theorem test_decode_ldDtVx : decode 0xF315 = .ok (.ldDtVx 3) := by decide
theorem test_decode_ldStVx : decode 0xF318 = .ok (.ldStVx 3) := by decide
theorem test_decode_addI : decode 0xF21E = .ok (.addI 2) := by decide
theorem test_decode_ldFont : decode 0xF229 = .ok (.ldFont 2) := by decide
theorem test_decode_ldBcd : decode 0xF433 = .ok (.ldBcd 4) := by decide
theorem test_decode_storeRegs : decode 0xF155 = .ok (.storeRegs 1) := by decide
theorem test_decode_loadRegs : decode 0xFF65 = .ok (.loadRegs 15) := by decide

/-- Vector E1: the first byte is the high byte. -/
theorem test_decodeTableWord : decodeTableWord 16 0x1234 = some (.jp 0x234) ∧ decodeTableWord 16 0x5121 = none := by decide

/-! ### One STEP each: the vectors of spec/95_test_vectors.md, parts 1 and 2 -/

/-- The reset state with these registers. -/
def withRegs (l : List (Nibble × Byte)) : State := l.foldl (fun s p => s.setV p.1 p.2) State.reset

/-- The word at `pc`, one STEP with the random byte `A7`, and what is asked of the next state. -/
def after (s : State) (w : Word) (ask : State → Bool) : Bool :=
  match (s.writeWord s.pc.toNat w).stepEvent 0xA7 with
  | .next t => ask t
  | _ => false

/-- The cells from `a` up. -/
def cells (s : State) (a n : Nat) : List Nat := (s.readBytes a n).map BitVec.toNat

/-- E2, E3, E4 -/
theorem test_fetch_at_the_end_of_memory : after { State.reset with pc := 0xFFE } 0x6007 (fun t => t.getV 0 == 7 && t.pc == 0x1000) = true
    ∧ after { State.reset with pc := 0xFFF } 0x6007 (fun t => t.faultCause == 4 && t.pc == 0xFFF && t.getV 0 == 0) = true := by decide
/-- E5 -/
theorem test_fetch_at_an_odd_pc : after { State.reset with pc := 0x201 } 0x612A (fun t => t.getV 1 == 0x2A && t.pc == 0x203) = true := by decide
/-- E6 -/
theorem test_empty_memory_raises_unknownOpcode : State.reset.stepEvent 0 = .next { State.reset with faultCause := 1 } := rfl
/-- F2 -/
theorem test_jp_to_itself : after { State.reset with pc := 0x20C } 0x120C (fun t => t.pc == 0x20C) = true := by decide
/-- F5, F6 -/
theorem test_call : after { State.reset with sp := 15 } 0x2300 (fun t => t.stack[15] == 0x200 && t.sp == 16 && t.pc == 0x300) = true
    ∧ after { State.reset with sp := 16 } 0x2300 (fun t => t.faultCause == 2 && t.sp == 16 && t.pc == 0x200) = true := by decide
/-- F9, F8 -/
theorem test_ret : after { State.reset with sp := 1, stack := State.reset.stack.set 0 0xFFE } 0x00EE
      (fun t => t.sp == 0 && t.pc == 0x1000 && t.stack[0] == 0xFFE) = true
    ∧ after State.reset 0x00EE (fun t => t.faultCause == 3 && t.sp == 0 && t.pc == 0x200) = true := by decide
/-- F10, F11 -/
theorem test_seImm : after (withRegs [(2, 0x44)]) 0x3244 (fun t => t.pc == 0x204) = true
    ∧ after (withRegs [(2, 0x45)]) 0x3244 (fun t => t.pc == 0x202) = true := by decide
/-- F12, F13 -/
theorem test_sneImm : after (withRegs [(2, 0x44)]) 0x4244 (fun t => t.pc == 0x202) = true
    ∧ after (withRegs [(2, 0x45)]) 0x4244 (fun t => t.pc == 0x204) = true := by decide
/-- F14, F15 -/
theorem test_seReg : after (withRegs [(1, 9), (2, 9)]) 0x5120 (fun t => t.pc == 0x204) = true
    ∧ after (withRegs [(1, 9), (2, 8)]) 0x5120 (fun t => t.pc == 0x202) = true := by decide
/-- F17, F18 -/
theorem test_sneReg : after (withRegs [(1, 9), (2, 8)]) 0x9120 (fun t => t.pc == 0x204) = true
    ∧ after (withRegs [(1, 9), (2, 9)]) 0x9120 (fun t => t.pc == 0x202) = true := by decide
/-- F21 -/
theorem test_jpV0_is_not_reduced : after (withRegs [(0, 0xFF)]) 0xBFFF (fun t => t.pc == 0x10FE && t.faultCause == 0) = true := by decide
/-- A2 -/
theorem test_ldImm : after State.reset 0x6FAB (fun t => t.getV 15 == 0xAB && t.pc == 0x202) = true := by decide
/-- A3 -/
theorem test_addImm : after (withRegs [(1, 5)]) 0x71FF (fun t => t.getV 1 == 4 && t.getV 15 == 0) = true := by decide
/-- A5 -/
theorem test_ldReg : after (withRegs [(2, 0x33)]) 0x8120 (fun t => t.getV 1 == 0x33 && t.getV 2 == 0x33) = true := by decide
/-- A6 -/
theorem test_orReg : after (withRegs [(0, 0xF0), (1, 0x0F), (15, 1)]) 0x8011 (fun t => t.getV 0 == 0xFF && t.getV 15 == 1) = true := by decide
/-- A7 -/
theorem test_andReg : after (withRegs [(0, 0xF0), (1, 0x3C), (15, 1)]) 0x8012 (fun t => t.getV 0 == 0x30 && t.getV 15 == 1) = true := by decide
/-- A8 -/
theorem test_xorReg : after (withRegs [(0, 0xF0), (1, 0x3C), (15, 1)]) 0x8013 (fun t => t.getV 0 == 0xCC && t.getV 15 == 1) = true := by decide
/-- A10, A11 -/
theorem test_addReg : after (withRegs [(0, 0x7F), (1, 0x80)]) 0x8014 (fun t => t.getV 0 == 0xFF && t.getV 15 == 0) = true
    ∧ after (withRegs [(0, 0x80), (1, 0x80)]) 0x8014 (fun t => t.getV 0 == 0 && t.getV 15 == 1) = true := by decide
/-- A13, A14 -/
theorem test_addReg_with_15 : after (withRegs [(15, 0xFF), (1, 3)]) 0x8F14 (fun t => t.getV 15 == 2) = true
    ∧ after (withRegs [(0, 0xFE), (15, 3)]) 0x80F4 (fun t => t.getV 0 == 1 && t.getV 15 == 1) = true := by decide
/-- A15, A16, S3 -/
theorem test_subReg : after (withRegs [(0, 0x0A), (1, 3)]) 0x8015 (fun t => t.getV 0 == 7 && t.getV 15 == 1) = true
    ∧ after (withRegs [(0, 0x55), (1, 0x55)]) 0x8015 (fun t => t.getV 0 == 0 && t.getV 15 == 0) = true
    ∧ after (withRegs [(0, 3), (1, 0x0A)]) 0x8015 (fun t => t.getV 0 == 0xF9 && t.getV 15 == 0) = true := by decide
/-- A18, A19, A20 -/
theorem test_subReg_with_15 : after (withRegs [(15, 9), (1, 4)]) 0x8F15 (fun t => t.getV 15 == 253) = true
    ∧ after (withRegs [(0, 9), (15, 4)]) 0x80F5 (fun t => t.getV 0 == 8 && t.getV 15 == 1) = true
    ∧ after (withRegs [(15, 200)]) 0x8FF5 (fun t => t.getV 15 == 0) = true := by decide
/-- A22, A23 -/
theorem test_shr : after (withRegs [(0, 3), (7, 0xAA)]) 0x8076 (fun t => t.getV 0 == 1 && t.getV 15 == 1 && t.getV 7 == 0xAA) = true
    ∧ after (withRegs [(15, 0xFF)]) 0x8F06 (fun t => t.getV 15 == 0) = true := by decide
/-- S3, A24 -/
theorem test_subn : after (withRegs [(0, 3), (1, 0x0A)]) 0x8017 (fun t => t.getV 0 == 7 && t.getV 15 == 1) = true
    ∧ after (withRegs [(0, 5), (1, 5)]) 0x8017 (fun t => t.getV 0 == 0 && t.getV 15 == 0) = true := by decide
/-- A26, A27 -/
theorem test_subn_with_15 : after (withRegs [(1, 9), (15, 4)]) 0x8F17 (fun t => t.getV 15 == 8) = true
    ∧ after (withRegs [(0, 4), (15, 9)]) 0x80F7 (fun t => t.getV 0 == 253 && t.getV 15 == 1) = true := by decide
/-- A29, A30 -/
theorem test_shl : after (withRegs [(0, 0x41), (7, 0xAA)]) 0x807E (fun t => t.getV 0 == 0x82 && t.getV 15 == 0 && t.getV 7 == 0xAA) = true
    ∧ after (withRegs [(15, 0x80)]) 0x8F0E (fun t => t.getV 15 == 2) = true := by decide
/-- A32: the random byte is `A7` -/
theorem test_rnd : after State.reset 0xC30F (fun t => t.getV 3 == 0x07 && t.pc == 0x202) = true := by decide
/-- M1 -/
theorem test_ldI : after { State.reset with i := 0xFFFF } 0xA300 (fun t => t.i == 0x300 && t.pc == 0x202) = true := by decide
/-- M3, M5 -/
theorem test_addI : after { withRegs [(0, 0)] with i := 0xFFF } 0xF01E (fun t => t.i == 0xFFF && t.getV 15 == 0) = true
    ∧ after { withRegs [(0, 1)] with i := 0xFFFF } 0xF01E (fun t => t.i == 0 && t.getV 15 == 1) = true := by decide
/-- M6, M7 -/
theorem test_addI_with_15 : after { withRegs [(15, 5)] with i := 0x100 } 0xFF1E (fun t => t.i == 0x100 && t.getV 15 == 0) = true
    ∧ after { withRegs [(15, 1)] with i := 0xFFF } 0xFF1E (fun t => t.i == 0x1000 && t.getV 15 == 1) = true := by decide
/-- M9 -/
theorem test_ldFont_is_unmasked : after (withRegs [(2, 0xFF)]) 0xF229 (fun t => t.i == 0x4FB && t.faultCause == 0) = true := by decide
/-- S8, M14 -/
theorem test_ldBcd : after (withRegs [(4, 123)]) 0xF433 (fun t => cells t 0 4 == [1, 2, 3, 0x90] && t.i == 0 && t.pc == 0x202) = true
    ∧ after { State.reset with i := 0xFFE } 0xF033 (fun t => t.faultCause == 5 && t.pc == 0x200) = true := by decide
/-- M15, M17 -/
theorem test_storeRegs : after { withRegs [(0, 0x12), (1, 8), (2, 0x77)] with i := 0x208 } 0xF155
      (fun t => cells t 0x207 4 == [0, 0x12, 8, 0] && t.i == 0x208 && t.pc == 0x202) = true
    ∧ after { withRegs [(0, 1)] with i := 0xFF1 } 0xFF55 (fun t => t.faultCause == 5 && cells t 0xFF1 1 == [0]) = true := by decide
/-- M20, M21 -/
theorem test_loadRegs : after (withRegs [(5, 0x99)]) 0xF465
      (fun t => (t.regsUpTo 5).map BitVec.toNat == [0xF0, 0x90, 0x90, 0x90, 0xF0, 0x99] && t.i == 0 && t.pc == 0x202) = true
    ∧ after { State.reset with i := 0x1000 } 0xF065 (fun t => t.faultCause == 5 && t.pc == 0x200) = true := by decide
/-- G1 -/
theorem test_cls : after { withRegs [(15, 1)] with fb := Vector.replicate 32 (BitVec.allOnes 64) } 0x00E0
    (fun t => t.fb == Vector.replicate 32 0 && t.getV 15 == 1 && t.pc == 0x202) = true := by decide
/-- G2: columns 62, 63, 4 and 5 of row 31 -/
theorem test_drw_wraps : after { (withRegs [(0, 62), (1, 31)]).writeMem 0x20C 0xC3 with i := 0x20C } 0xD011
    (fun t => t.fb == (Vector.replicate 32 0).set 31 0xC000000000000030 && t.getV 15 == 0 && t.pc == 0x202) = true := by decide
/-- G3, G11 -/
theorem test_drw_collides_or_faults :
    after { State.reset.writeMem 0x300 0x80 with i := 0x300, fb := (Vector.replicate 32 0).set 0 1 } 0xD011
      (fun t => t.fb == Vector.replicate 32 0 && t.getV 15 == 1) = true
    ∧ after { withRegs [(15, 7)] with i := 0xFFF } 0xD012 (fun t => t.faultCause == 5 && t.getV 15 == 7 && t.pc == 0x200) = true := by decide
/-- K1, K5 -/
theorem test_skp : after ((withRegs [(1, 7)]).setKey 7 true) 0xE19E (fun t => t.pc == 0x204) = true
    ∧ after (withRegs [(1, 16)]) 0xE19E (fun t => t.faultCause == 6 && t.pc == 0x200) = true := by decide
/-- K3, K6 -/
theorem test_sknp : after (withRegs [(1, 7)]) 0xE1A1 (fun t => t.pc == 0x204) = true
    ∧ after (withRegs [(1, 0xFF)]) 0xE1A1 (fun t => t.faultCause == 6 && t.pc == 0x200) = true := by decide
/-- K7, S9 -/
theorem test_ldVxKey : after ((State.reset.setKey 7 true).setKey 3 true) 0xF10A (fun t => t.getV 1 == 3 && t.pc == 0x202) = true
    ∧ after (withRegs [(3, 9)]) 0xF30A (fun t => t.pc == 0x200 && t.getV 3 == 9) = true := by decide
/-- K11 -/
theorem test_ldVxDt : after { State.reset with dt := 0x2A } 0xF307 (fun t => t.getV 3 == 0x2A && t.dt == 0x2A) = true := by decide
/-- K12 -/
theorem test_ldDtVx : after (withRegs [(3, 0x3C)]) 0xF315 (fun t => t.dt == 0x3C && t.st == 0) = true := by decide
/-- K13 -/
theorem test_ldStVx : after (withRegs [(3, 5)]) 0xF318 (fun t => t.st == 5 && t.dt == 0) = true := by decide

/-! ### The other events -/

/-- K14, K15, K17 -/
theorem test_tick : ({ State.reset with dt := 2, st := 1 } : State).tickEvent = { State.reset with dt := 1 }
    ∧ ({ State.reset with st := 5 } : State).tickEvent = { State.reset with st := 4 }
    ∧ ({ State.reset with dt := 9, faultCause := 2 } : State).tickEvent = { State.reset with dt := 9, faultCause := 2 } := by decide
/-- K19 -/
theorem test_key_while_faulted : (({ State.reset with faultCause := 1 } : State).setKey 9 true).keyEvent 9 false = { State.reset with faultCause := 1 } := by
  decide
/-- Z1 -/
theorem test_reset_event : ({ (withRegs [(3, 1)]).setKey 4 true with faultCause := 3, pc := 0x300 } : State).resetEvent = State.reset.setKey 4 true := by
  decide
/-- Z3 -/
theorem test_load : cells (State.reset.loadEvent [0xAA, 0xBB, 0xCC]) 0x1FF 5 = [0, 0xAA, 0xBB, 0xCC, 0] := by decide
/-- Z7 -/
theorem test_load_while_faulted : ({ State.reset with faultCause := 1 } : State).loadEvent [0xAA] = { State.reset with faultCause := 1 } := by decide
/-- Program P7 of part 3, its first row: a load, then the step that underflows; the third event is left for later. -/
theorem test_step_takes_the_oldest_event :
    step { State.reset with hostEvents := [.load [0x00, 0xEE], .step 0, .tick] }
      = .next { State.reset with memory := [(0x201, 0xEE)], hostEvents := [.step 0, .tick] } := rfl
/-- With no event left the step is a STEP, here of the word that `withFetchWord` puts at `pc`. -/
theorem test_step_runs_the_fetch_word : ∃ t, step (({ State.reset with pc := 0x1000, faultCause := 4 } : State).withFetchWord 16 0x6A2C) = .next t
    ∧ t.getV 10 = 0x2C ∧ t.pc = 0x202 := ⟨_, rfl, rfl, rfl⟩

/-! ### Witnesses: a state and operands that meet the hypotheses of each obligation, at the boundaries of its clauses -/

/-- A word of every row of the opcode map, for the hypothesis of `decodesTo`. -/
theorem witness_decodesTo :
    (([0x00E0, 0x00EE, 0x1ABC, 0x2FFF, 0x3244, 0x42F4, 0x5120, 0x6A2C, 0x71FF, 0x8120, 0x8A31, 0x80F2] : List Word)
      ++ [0x8F53, 0x8334, 0x80F5, 0x8076, 0x8F17, 0x807E, 0x9120, 0xA20C, 0xBFFF, 0xC30F, 0xD12F, 0xE19E]
      ++ [0xE2A1, 0xF307, 0xF30A, 0xF315, 0xF318, 0xF21E, 0xF229, 0xF433, 0xF155, 0xFF65]).zip opcodeMap
      |>.all (fun p => p.1 &&& p.2.mask == p.2.value) := by decide

theorem witness_EncodingADecodedWordGivesItBack : decode 0x8AB6 = .ok (.shr 10 11) := by decide

theorem witness_AWordSelectsTheRowOfItsInstruction : decode 0x8AB6 = .ok (.shr 10 11) ∧ decode 0x8AB8 = .error .illegal8
    ∧ (⟨0xF00F, 0x8006⟩ : OpcodeRow) ∈ opcodeMap := by decide

/-- A state with this word at the last address that a fetch accepts. -/
def atEnd (w : Word) : State := { State.reset.writeWord 0xFFE w with pc := 0xFFE }

theorem witness_IllegalWordsRaiseUnknownOpcode : (atEnd 0xF175).faultCause = 0 ∧ (atEnd 0xF175).pc.toNat ≤ 4094
    ∧ (0xF175 : Word).toNat = ((atEnd 0xF175).readMem (atEnd 0xF175).pc.toNat).toNat * 256 + ((atEnd 0xF175).readMem ((atEnd 0xF175).pc.toNat + 1)).toNat
    ∧ decode 0xF175 = .error .illegalF := by decide

theorem witness_StepFetchesDecodesExecutes_faulted : ({ State.reset with faultCause := 1 } : State).faultCause ≠ 0 := by decide
theorem witness_StepFetchesDecodesExecutes_out_of_range : ({ State.reset with pc := 4095 } : State).faultCause = 0
    ∧ 4094 < ({ State.reset with pc := 4095 } : State).pc.toNat := by decide
theorem witness_StepFetchesDecodesExecutes_in_range : (atEnd 0x6007).faultCause = 0 ∧ (atEnd 0x6007).pc.toNat = 4094
    ∧ (0x6007 : Word).toNat = ((atEnd 0x6007).readMem (atEnd 0x6007).pc.toNat).toNat * 256 + ((atEnd 0x6007).readMem ((atEnd 0x6007).pc.toNat + 1)).toNat
    ∧ decode 0x6007 = .ok (.ldImm 0 7) := by decide

theorem witness_MachineStepRunsTheDecodedInstruction : (atEnd 0x6007).faultCause = 0 ∧ (atEnd 0x6007).pc.toNat ≤ 4094
    ∧ decodeBytes [(atEnd 0x6007).readMem (atEnd 0x6007).pc.toNat, (atEnd 0x6007).readMem ((atEnd 0x6007).pc.toNat + 1)] = .ok (.ldImm 0 7, [])
    ∧ (atEnd 0x6007).hostEvents = [] ∧ ({ atEnd 0x6007 with hostEvents := [.step 3, .tick] } : State).hostEvents = .step 3 :: [.tick] := by decide

/-- The empty schedule, in a faulted core, with an illegal word at `pc`, and with a `pc` that the fetch refuses. -/
theorem witness_MachineStepRunsTheDecodedInstruction_no_event : ({ State.reset with faultCause := 1 } : State).hostEvents = []
    ∧ State.reset.hostEvents = [] ∧ decode 0x0000 = .error .illegal0 ∧ ({ State.reset with pc := 4095 } : State).hostEvents = [] := by decide

theorem witness_AFaultedCoreIsFrozenUntilReset : ({ State.reset with faultCause := 6 } : State).faultCause ≠ 0
    ∧ Event.key 3 true ≠ .reset ∧ ∃ t, ({ State.reset with faultCause := 6 } : State).event (.key 3 true) = .next t :=
  ⟨by decide, by decide, _, rfl⟩

theorem witness_FaultsArePrecise : State.reset.faultCause = 0 ∧ ∃ t, State.reset.stepEvent 0xA7 = .next t ∧ t.faultCause ≠ 0 :=
  ⟨rfl, _, rfl, by decide⟩

/-- Each fault's condition is met by a state that has not faulted, at the boundary of its range, and the STEP answers with its code. -/
theorem witness_EachFaultHasItsCondition :
    after { State.reset with pc := 4095 } 0x6007 (fun t => t.faultCause == 4) = true
    ∧ after { State.reset with pc := 4094 } 0x0000 (fun t => t.faultCause == 1) = true
    ∧ after { State.reset with sp := 16 } 0x2300 (fun t => t.faultCause == 2) = true
    ∧ after State.reset 0x00EE (fun t => t.faultCause == 3) = true
    ∧ after { State.reset with i := 0x1000 } 0xD011 (fun t => t.faultCause == 5) = true
    ∧ after { State.reset with i := 0xFFE } 0xF033 (fun t => t.faultCause == 5) = true
    ∧ after { State.reset with i := 0xFF1 } 0xFF55 (fun t => t.faultCause == 5) = true
    ∧ after { State.reset with i := 0x1000 } 0xF065 (fun t => t.faultCause == 5) = true
    ∧ after (withRegs [(1, 16)]) 0xE19E (fun t => t.faultCause == 6) = true
    ∧ after (withRegs [(1, 15)]) 0xE1A1 (fun t => t.faultCause == 0) = true := by decide

theorem witness_Inv : State.reset.Inv := ⟨by decide, by decide, by decide, by decide, by decide⟩

/-- A state of the invariant with a full stack, the largest `pc` that a fetch accepts and a fault recorded. -/
theorem witness_Inv_at_the_boundary :
    ({ State.reset with sp := 16, stack := Vector.replicate 16 4094, pc := 0x10FE, faultCause := 6, memory := [(0, 1), (4095, 2)] } : State).Inv :=
  ⟨by decide, by decide, by decide, by decide, by decide⟩

theorem witness_EveryStepKeepsTheInvariant : ∃ t, step ({ State.reset with hostEvents := [.load [0x23, 0x00], .step 0] } : State) = .next t :=
  ⟨_, rfl⟩

theorem witness_OnlyTheListedWritersWrite :
    (∃ t, exec (.addReg 0 1) State.reset = .next t) ∧ hasDestination (.addReg 0 1) 2 = false ∧ writesFlag (.addReg 0 1) = true ∧ (2 : Nibble) ≠ 15
    ∧ (∀ x, Instr.addReg 0 1 ≠ .ldBcd x) ∧ (∀ x y n, Instr.addReg 0 1 ≠ .drw x y n) ∧ (∀ nnn, Instr.addReg 0 1 ≠ .call nnn)
    ∧ Instr.addReg 0 1 ≠ .ret ∧ Instr.addReg 0 1 ≠ .cls ∧ (∀ x, Instr.addReg 0 1 ≠ .storeRegs x) ∧ (∀ x, Instr.addReg 0 1 ≠ .ldDtVx x)
    ∧ (∀ x, Instr.addReg 0 1 ≠ .ldStVx x) ∧ (∀ nnn, Instr.addReg 0 1 ≠ .ldI nnn) ∧ (∀ x, Instr.addReg 0 1 ≠ .addI x)
    ∧ ∀ x, Instr.addReg 0 1 ≠ .ldFont x :=
  ⟨⟨_, rfl⟩, by simp [hasDestination], by simp [writesFlag], by decide, by simp⟩

theorem witness_FlagsAreZeroOrOne : writesFlag (.addReg 0 1) = true ∧ hasDestination (.addReg 0 1) 15 = false ∧ State.reset.faultCause = 0
    ∧ ∃ t, exec (.addReg 0 1) State.reset = .next t ∧ t.faultCause = 0 := ⟨rfl, rfl, rfl, _, rfl, rfl⟩

theorem witness_EveryInstructionUpdatesPcByItsKind : State.reset.faultCause = 0 ∧ (∃ t, exec (.jp 0x300) State.reset = .next t ∧ t.faultCause = 0)
    ∧ ∃ t, exec .ret State.reset = .next t ∧ t.faultCause ≠ 0 := ⟨rfl, ⟨_, rfl, rfl⟩, _, rfl, by decide⟩

theorem witness_OnlyRndReadsTheRandomInput : (∀ x kk, Instr.jp 0x300 ≠ .rnd x kk) ∧ ∃ t, exec (.jp 0x300) State.reset = .next t :=
  ⟨by simp, _, rfl⟩

theorem witness_DrwXorsTheSprite_in_range : (15 : Nibble).val = 0 ∨ ({ State.reset with i := 0xFF1 } : State).i.toNat + (15 : Nibble).val - 1 ≤ 0xFFF := by
  decide
theorem witness_DrwXorsTheSprite_no_row : (0 : Nibble).val = 0 ∨ ({ State.reset with i := 0xFFFF } : State).i.toNat + (0 : Nibble).val - 1 ≤ 0xFFF := by
  decide
theorem witness_DrwXorsTheSprite_out_of_range : 1 ≤ (15 : Nibble).val ∧ 0xFFF < ({ State.reset with i := 0xFF2 } : State).i.toNat + (15 : Nibble).val - 1 := by
  decide
/-- Row 0 of the first glyph, `F0`, at the origin covers column 0, on a pixel that is set and on one that is not; column 4 is not covered. -/
theorem witness_DrwXorsTheSprite_covered : State.reset.spriteCovers 0 0 1 0 0 ∧ pixel State.reset.fb 0 0 = false
    ∧ ({ State.reset with fb := (Vector.replicate 32 0).set 0 1 } : State).spriteCovers 0 0 1 0 0
    ∧ pixel ((Vector.replicate 32 0).set 0 1) 0 0 = true :=
  ⟨⟨0, 0, by decide⟩, by decide, ⟨0, 0, by decide⟩, by decide⟩
theorem witness_DrwXorsTheSprite_not_covered : ¬ State.reset.spriteCovers 0 0 0 4 0 := fun ⟨r, _, h, _⟩ => absurd h (by simp)

theorem witness_DrawingTwiceRestoresTheFramebuffer : ∃ t t', State.reset.i.toNat + (1 : Nibble).val - 1 ≤ 0xFFF
    ∧ exec (.drw 0 0 1) State.reset = .next t ∧ t.i = State.reset.i ∧ sameMemory State.reset t ∧ t.getV 0 = State.reset.getV 0
    ∧ exec (.drw 0 0 1) t = .next t' ∧ (∀ px py, pixel State.reset.fb px py = false) ∧ State.reset.spriteCovers 0 0 1 0 0 :=
  ⟨_, _, by decide, rfl, rfl, fun _ => rfl, by decide, rfl, by simp [State.reset, pixel], ⟨0, 0, by decide⟩⟩

theorem witness_RetGoesPastTheCall : ({ State.reset with sp := 1 } : State).sp.toNat = (0 : Fin 16).val + 1
    ∧ ({ State.reset with sp := 16 } : State).sp.toNat = (15 : Fin 16).val + 1 ∧ State.reset.sp = 0 := by decide

theorem witness_CallPushesItsOwnAddress : State.reset.sp.toNat = (0 : Fin 16).val ∧ ({ State.reset with sp := 15 } : State).sp.toNat = (15 : Fin 16).val
    ∧ ({ State.reset with sp := 16 } : State).sp = 16 := by decide

theorem witness_ReturnUndoesTheCall : ({ State.reset with sp := 15 } : State).sp.toNat = (15 : Fin 16).val
    ∧ ∃ t, exec (.call 0x300) { State.reset with sp := 15 } = .next t ∧ t.sp = t.sp ∧ t.stack[(15 : Fin 16)] = t.stack[(15 : Fin 16)] :=
  ⟨rfl, _, rfl, rfl, rfl⟩

theorem witness_AnImpossibleStackPointerStops : 16 < ({ State.reset with sp := 17 } : State).sp.toNat
    ∧ 16 < ({ State.reset with sp := 31 } : State).sp.toNat := by decide

theorem witness_SkipsOnAnImmediate : ((withRegs [(2, 0xFF)]).getV 2).toNat = (0xFF : Byte).toNat ∧ (State.reset.getV 2).toNat ≠ (0xFF : Byte).toNat := by
  decide

theorem witness_SkipsOnTwoRegisters : ((withRegs [(15, 9), (2, 9)]).getV 15).toNat = ((withRegs [(15, 9), (2, 9)]).getV 2).toNat
    ∧ ((withRegs [(15, 9)]).getV 15).toNat ≠ ((withRegs [(15, 9)]).getV 2).toNat := by decide

theorem witness_SkipsOnAKey : ((withRegs [(1, 15)]).getV 1).toNat = (15 : Nibble).val ∧ ((withRegs [(1, 15)]).setKey 15 true).key 15 = true
    ∧ (withRegs [(1, 15)]).key 15 = false ∧ 15 < ((withRegs [(1, 16)]).getV 1).toNat := by decide

theorem witness_KeyWaitTakesTheLeastKey : (State.reset.setKey 15 true).key 15 = true ∧ (∀ j : Nibble, j < 15 → (State.reset.setKey 15 true).key j = false)
    ∧ ∀ k : Nibble, State.reset.key k = false := by decide

theorem witness_AddImmediateWrapsWithoutAFlag : ∃ t u, exec (.ldImm 15 0xFF) State.reset = .next t ∧ exec (.addImm 15 2) t = .next u :=
  ⟨_, _, rfl, rfl⟩

/-- The cases of the register 15 in the statements about the flag. -/
theorem witness_cases_of_register_15 : (0 : Nibble) ≠ 15 ∧ (14 : Nibble) ≠ 15 ∧ (1 : Nibble) ≠ 14 ∧ (15 : Nibble) = 15 := by decide

theorem witness_CopyAndLogic_RndMasksTheRandomInput_bit : (0 : Nat) < 8 ∧ (7 : Nat) < 8 := by decide

theorem witness_BcdStoresThreeDigits : ({ State.reset with i := 0xFFD } : State).i.toNat + 2 ≤ 0xFFF
    ∧ 0xFFF < ({ State.reset with i := 0xFFE } : State).i.toNat + 2 ∧ (0 : Nat) < ({ State.reset with i := 0xFFD } : State).i.toNat := by decide

theorem witness_StoreAndLoadRegisters : ({ State.reset with i := 0xFF0 } : State).i.toNat + (15 : Nibble).val ≤ 0xFFF
    ∧ 0xFFF < ({ State.reset with i := 0x1000 } : State).i.toNat + (0 : Nibble).val ∧ (15 : Nibble) ≤ 15 ∧ (14 : Nibble) < 15
    ∧ (0xFEF : Nat) < ({ State.reset with i := 0xFF0 } : State).i.toNat := by decide

theorem witness_AStoreIsSeenByTheNextFetch : ({ withRegs [(0, 0x12), (1, 8)] with i := 0x202 } : State).i.toNat + (1 : Nibble).val ≤ 0xFFF
    ∧ ∃ t, exec (.storeRegs 1) { withRegs [(0, 0x12), (1, 8)] with i := 0x202 } = .next t ∧ (1 : Nibble).val = (0 : Nibble).val + 1 ∧ (1 : Nibble) ≤ 1
      ∧ t.pc.toNat = ({ withRegs [(0, 0x12), (1, 8)] with i := 0x202 } : State).i.toNat + (0 : Nibble).val :=
  ⟨by decide, _, rfl, by decide, by decide, by decide⟩

theorem witness_TickCountsBothTimersDown : ({ State.reset with dt := 255 } : State).faultCause = 0 ∧ ({ State.reset with faultCause := 2 } : State).faultCause ≠ 0 := by
  decide

theorem witness_ResetLeavesTheResetValues : ∃ s t : State, s.event .reset = .next t ∧ (80 : Nat) ≤ 80 := ⟨State.reset, _, rfl, by decide⟩

/-- Two states that differ in all that a run changes, with the same keys and the same of the model's own fields. -/
theorem witness_ResetForgetsTheRunBefore : ({ withRegs [(1, 1)] with pc := 0x1000, faultCause := 4 } : State).keys = State.reset.keys
    ∧ ({ withRegs [(1, 1)] with pc := 0x1000, faultCause := 4 } : State).font = State.reset.font
    ∧ ({ withRegs [(1, 1)] with pc := 0x1000, faultCause := 4 } : State).rnd = State.reset.rnd
    ∧ ({ withRegs [(1, 1)] with pc := 0x1000, faultCause := 4 } : State).draws = State.reset.draws
    ∧ ({ withRegs [(1, 1)] with pc := 0x1000, faultCause := 4 } : State).hostEvents = State.reset.hostEvents := by decide

theorem witness_LoadPlacesTheImageAndTruncates : State.reset.faultCause = 0 ∧ (3583 : Nat) < (List.replicate 4000 (1 : Byte)).length ∧ (3583 : Nat) < 3584
    ∧ 0x200 + min (List.replicate 4000 (1 : Byte)).length 3584 ≤ 4096 := by
  rw [List.length_replicate]; decide

theorem witness_OnlyKeyEventsWriteKeys : (∀ k down, Event.tick ≠ .key k down) ∧ (∃ t, State.reset.event .tick = .next t) ∧ (3 : Nibble) ≠ 9 :=
  ⟨by simp, ⟨_, rfl⟩, by decide⟩

theorem witness_TickCommutesWithOtherWork : ({ State.reset with dt := 1 } : State).faultCause = 0
    ∧ (∃ t, exec (.ldImm 1 2) { State.reset with dt := 1 } = .next t ∧ t.faultCause = 0)
    ∧ (∀ x, Instr.ldImm 1 2 ≠ .ldVxDt x) ∧ (∀ x, Instr.ldImm 1 2 ≠ .ldDtVx x) ∧ ∀ x, Instr.ldImm 1 2 ≠ .ldStVx x :=
  ⟨rfl, ⟨_, rfl, rfl⟩, by simp⟩

theorem witness_ASelfJumpStaysAtItsEnd : (State.reset.writeWord 0x200 0x1200).halted ∧ Event.tick ≠ .reset ∧ (∀ image, Event.tick ≠ .load image)
    ∧ ∃ t, (State.reset.writeWord 0x200 0x1200).event .tick = .next t :=
  ⟨⟨by decide, 0x200, rfl, by decide⟩, by simp, by simp, _, rfl⟩

end Sys2Proof.Tests
end

section
/-! The skips on an immediate, `3xkk` (R103) and `4xkk` (R104): the pair of skips on one comparison, and the words of a one-nibble opcode. -/
namespace Sys2Proof

/-- A masked top nibble is the category (R76): it turns the opcode map's mask of a one-nibble opcode into `fieldOp`. -/
theorem fieldOp_of_and_F000 {w : Word} {op : BitVec 4} (h : w &&& 0xF000 = wordNnn op 0) : fieldOp w = op := by
  rw [and_F000, wordNnn_inj] at h
  exact h.1

end Sys2Proof

namespace Sys2Proof.Machine

section SkipRules

variable (s : State)

theorem exec_seImm (x : Nibble) (kk : Byte) : exec (.seImm x kk) s = .next (s.skipIf (s.getV x == kk)) := rfl
theorem exec_sneImm (x : Nibble) (kk : Byte) : exec (.sneImm x kk) s = .next (s.skipIf (s.getV x != kk)) := rfl

/-- The skip update writes only `pc` (R72). -/
theorem State.skipIf_onlyPc (c : Bool) : onlyPc s (s.skipIf c) := ⟨rfl, fun _ => rfl⟩

/-- On equal bytes the skip on equality is taken and the skip on difference is not. -/
theorem State.skipIf_pc_of_toNat_eq {a b : Byte} (h : a.toNat = b.toNat) :
    (s.skipIf (a == b)).pc = s.pc + 4 ∧ (s.skipIf (a != b)).pc = s.pc + 2 := by
  have hab : a = b := BitVec.eq_of_toNat_eq h
  simp [hab]

/-- On different bytes the skip on difference is taken and the skip on equality is not. -/
theorem State.skipIf_pc_of_toNat_ne {a b : Byte} (h : a.toNat ≠ b.toNat) :
    (s.skipIf (a == b)).pc = s.pc + 2 ∧ (s.skipIf (a != b)).pc = s.pc + 4 := by
  have hab : a ≠ b := fun e => h (congrArg BitVec.toNat e)
  simp [hab]

end SkipRules

/-- Settles O26: both forms are the skip update, on the comparison of `V[x]` with `kk` and on its negation. -/
theorem skipsOnAnImmediate : Obligations.SkipsOnAnImmediate := by
  refine ⟨fun w h => ?seImm, fun w h => ?sneImm, fun x kk s => ?skips⟩
  case seImm => exact decode_of_op3 w (fieldOp_of_and_F000 (op := 0x3) h)
  case sneImm => exact decode_of_op4 w (fieldOp_of_and_F000 (op := 0x4) h)
  case skips =>
    exact ⟨_, _, exec_seImm s x kk, s.skipIf_onlyPc _, exec_sneImm s x kk, s.skipIf_onlyPc _,
      s.skipIf_pc_of_toNat_eq, s.skipIf_pc_of_toNat_ne⟩

end Sys2Proof.Machine
end

section
/-! The instructions that write one register and no flag, `6xkk` (R112), `7xkk` (R113) and `8xy0` to `8xy3` (R114 to R117): each is one
register write followed by the advance of `pc`. -/
namespace Sys2Proof.Machine

open Sys2Proof.Laws

/-- The words of a format `XY` row of the opcode map (R78) decode to the row's instruction when its own words do: a word that the row's mask
selects is the word of the instruction with that word's register fields. -/
theorem decodesTo_of_encode_wordXyn {op : BitVec 4} {n : Nibble} {f : Nibble → Nibble → Instr}
    (hword : ∀ x y, encode (f x y) = wordXyn op x y n) (hdecode : ∀ x y, EncodeRoundTrip.Statement (f x y)) :
    decodesTo 0xF00F (wordXyn op 0 0 n) (fun w => f (fieldX w) (fieldY w)) := by
  intro w h
  rw [and_F00F, wordXyn_inj] at h
  obtain ⟨hop, -, -, hn⟩ := h
  have hw : encode (f (fieldX w) (fieldY w)) = w := by rw [hword, ← hop, ← hn, eq_wordXyn]
  have hd := hdecode (fieldX w) (fieldY w)
  rwa [EncodeRoundTrip.Statement, hw] at hd

section RegisterWrite

variable (s : State)

theorem exec_ldImm (x : Nibble) (kk : Byte) : exec (.ldImm x kk) s = .next (s.setV x kk).advance := rfl
theorem exec_addImm (x : Nibble) (kk : Byte) : exec (.addImm x kk) s = .next (s.setV x (s.getV x + kk)).advance := rfl
theorem exec_ldReg (x y : Nibble) : exec (.ldReg x y) s = .next (s.setV x (s.getV y)).advance := rfl
theorem exec_orReg (x y : Nibble) : exec (.orReg x y) s = .next (s.setV x (s.getV x ||| s.getV y)).advance := rfl
theorem exec_andReg (x y : Nibble) : exec (.andReg x y) s = .next (s.setV x (s.getV x &&& s.getV y)).advance := rfl
theorem exec_xorReg (x y : Nibble) : exec (.xorReg x y) s = .next (s.setV x (s.getV x ^^^ s.getV y)).advance := rfl

/-- A register write and the advance: the register holds the value. -/
theorem State.getV_setV_advance_self (x : Nibble) (b : Byte) : (s.setV x b).advance.getV x = b := by
  rw [State.advance_getV, State.getV_setV, if_pos rfl]

/-- A register write and the advance keep every other register, `V[15]` included. -/
theorem State.otherVSame_setV_advance (x : Nibble) (b : Byte) : otherVSame x s (s.setV x b).advance := fun r hr => by
  rw [State.advance_getV, State.getV_setV, if_neg hr]

/-- The frame of a register write and the advance: what they keep, and where `pc` ends. -/
theorem State.setV_advance_frame (x : Nibble) (b : Byte) : otherVSame x s (s.setV x b).advance
    ∧ (s.setV x b).advance.pc = s.pc + 2 ∧ onlyVPc s (s.setV x b).advance :=
  ⟨s.otherVSame_setV_advance x b, rfl, rfl, fun _ => rfl⟩

end RegisterWrite

/-- Settles O31: `6xkk` is the register write of `kk`. -/
theorem loadImmediateWritesVx : Obligations.LoadImmediateWritesVx := by
  refine ⟨fun w h => ?decode, fun x kk s => ?exec⟩
  case decode => exact decode_of_op6 w (fieldOp_of_and_F000 (op := 0x6) h)
  case exec => exact ⟨_, exec_ldImm s x kk, s.getV_setV_advance_self x kk, s.setV_advance_frame x kk⟩

/-- Settles O32: `7xkk` is the register write of the sum of bytes, which wraps, and after `6xkk` the register it reads holds that immediate. -/
theorem addImmediateWrapsWithoutAFlag : Obligations.AddImmediateWrapsWithoutAFlag := by
  refine ⟨fun w h => ?decode, fun x kk s => ?exec, fun x a b s t u ht hu => ?compose⟩
  case decode => exact decode_of_op7 w (fieldOp_of_and_F000 (op := 0x7) h)
  case exec =>
    refine ⟨_, exec_addImm s x kk, ?_, s.setV_advance_frame x _⟩
    rw [State.getV_setV_advance_self, BitVec.toNat_add]
  case compose =>
    rw [exec_ldImm] at ht
    rw [exec_addImm] at hu
    cases ht
    cases hu
    rw [State.getV_setV_advance_self, State.getV_setV_advance_self, BitVec.toNat_add]

/-- Settles O33: the copy and the three logic forms are each one register write, of a value that the bit operations give bit by bit. -/
theorem copyAndLogicWithoutAFlag : Obligations.CopyAndLogicWithoutAFlag := by
  refine ⟨?decode0, ?decode1, ?decode2, ?decode3, fun x y s => ⟨?copy, ?or, ?and, ?xor⟩⟩
  case decode0 => exact decodesTo_of_encode_wordXyn (fun _ _ => rfl) EncodeRoundTrip.ldReg
  case decode1 => exact decodesTo_of_encode_wordXyn (fun _ _ => rfl) EncodeRoundTrip.orReg
  case decode2 => exact decodesTo_of_encode_wordXyn (fun _ _ => rfl) EncodeRoundTrip.andReg
  case decode3 => exact decodesTo_of_encode_wordXyn (fun _ _ => rfl) EncodeRoundTrip.xorReg
  case copy => exact ⟨_, exec_ldReg s x y, s.getV_setV_advance_self x _, s.setV_advance_frame x _⟩
  case or =>
    refine ⟨_, exec_orReg s x y, fun k _ => ?_, s.setV_advance_frame x _⟩
    rw [State.getV_setV_advance_self, BitVec.getLsbD_or]
  case and =>
    refine ⟨_, exec_andReg s x y, fun k _ => ?_, s.setV_advance_frame x _⟩
    rw [State.getV_setV_advance_self, BitVec.getLsbD_and]
  case xor =>
    refine ⟨_, exec_xorReg s x y, fun k _ => ?_, s.setV_advance_frame x _⟩
    rw [State.getV_setV_advance_self, BitVec.getLsbD_xor]

end Sys2Proof.Machine
end

section
/-! The loads of `I`, `Annn` (R130) and `Fx29` (R132): each is one write of `I` followed by the advance of `pc`. -/
namespace Sys2Proof.Machine

open Sys2Proof.Laws

/-- The words of a row of the opcode map (R78) that fixes the category and the low byte decode to the row's instruction when its own words do:
a word that the row's mask selects is the word of the instruction with that word's `x`. -/
theorem decodesTo_of_encode_wordXkk {op : BitVec 4} {kk : Byte} {f : Nibble → Instr}
    (hword : ∀ x, encode (f x) = wordXkk op x kk) (hdecode : ∀ x, EncodeRoundTrip.Statement (f x)) :
    decodesTo 0xF0FF (wordXkk op 0 kk) (fun w => f (fieldX w)) := by
  intro w h
  rw [and_F0FF, wordXkk_inj] at h
  obtain ⟨hop, -, hkk⟩ := h
  have hw : encode (f (fieldX w)) = w := by rw [hword, ← hop, ← hkk, eq_wordXkk]
  have hd := hdecode (fieldX w)
  rwa [EncodeRoundTrip.Statement, hw] at hd

/-- The address of a glyph is five times the whole byte: the product stays below `65536`, so the word holds it unreduced (R132). -/
@[simp] theorem glyphAddress_toNat (b : Byte) : (glyphAddress b).toNat = b.toNat * 5 := by
  have hb : b.toNat < 256 := b.isLt
  rw [glyphAddress, BitVec.toNat_ofNat, Nat.mod_eq_of_lt (by omega)]

section IndexWrite

variable (s : State)

theorem exec_ldI (nnn : BitVec 12) : exec (.ldI nnn) s = .next (s.setI (addressOf nnn)).advance := rfl
theorem exec_ldFont (x : Nibble) : exec (.ldFont x) s = .next (s.setI (glyphAddress (s.getV x))).advance := rfl

/-- The frame of a write of `I` and the advance: where `pc` ends, and that all but `I` and `pc` is kept. -/
theorem State.setI_advance_frame (a : Word) : (s.setI a).advance.pc = s.pc + 2 ∧ onlyIPc s (s.setI a).advance :=
  ⟨rfl, rfl, fun _ => rfl⟩

end IndexWrite

/-- Settles O39: both forms are the write of `I`, of the address field and of the address of the glyph of all of `V[x]`. -/
theorem loadsOfTheIndexRegister : Obligations.LoadsOfTheIndexRegister := by
  refine ⟨fun w h => ?decodeLdI, ?decodeLdFont, fun nnn s => ?ldI, fun x s => ?ldFont⟩
  case decodeLdI => exact decode_of_opA w (fieldOp_of_and_F000 (op := 0xA) h)
  case decodeLdFont => exact decodesTo_of_encode_wordXkk (fun _ => rfl) EncodeRoundTrip.ldFont
  case ldI => exact ⟨_, exec_ldI s nnn, addressOf_toNat nnn, s.setI_advance_frame _⟩
  case ldFont => exact ⟨_, exec_ldFont s x, glyphAddress_toNat _, s.setI_advance_frame _⟩

end Sys2Proof.Machine
end

section
/-! The clear of the framebuffer, `00E0` (R140): it is one framebuffer write followed by the advance of `pc`. -/
namespace Sys2Proof.Machine

open Sys2Proof.Laws

/-- A row of the opcode map of format `FIXED` (R74, R78) selects one word, so it decodes to its instruction when that word does. -/
theorem decodesTo_of_encode_fixed {i : Instr} (hdecode : EncodeRoundTrip.Statement i) : decodesTo 0xFFFF (encode i) (fun _ => i) := by
  intro w h
  have hw : w = encode i := (selects_all w (encode i)).mp (beq_iff_eq.mpr h)
  rw [hw]
  exact hdecode

/-- Every pixel of the clear framebuffer is 0, in the row-major numbering of R28. -/
theorem pixelAt_clear (k : Fin 2048) : pixelAt (Vector.replicate 32 0) k = false := pixel_clear _ _

section FramebufferWrite

variable (s : State)

theorem exec_cls : exec .cls s = .next (s.setFb (Vector.replicate 32 0)).advance := rfl

/-- The frame of a framebuffer write and the advance: where `pc` ends, and that all but the framebuffer and `pc` is kept. -/
theorem State.setFb_advance_frame (fb : Framebuffer) :
    (s.setFb fb).advance = { s with fb := fb, pc := s.pc + 2 } ∧ sameMemory s (s.setFb fb).advance :=
  ⟨rfl, fun _ => rfl⟩

end FramebufferWrite

/-- Settles O18: `00E0` is the framebuffer write of the clear framebuffer. -/
theorem clsClearsThePixels : Obligations.ClsClearsThePixels := by
  refine ⟨?decode, fun s => ?exec⟩
  case decode => exact decodesTo_of_encode_fixed EncodeRoundTrip.cls
  case exec => exact ⟨_, exec_cls s, pixelAt_clear, s.setFb_advance_frame _⟩

end Sys2Proof.Machine
end

section
/-! The wait for a key, `Fx0A` (R152), and the timer forms, `Fx07` (R153), `Fx15` (R154) and `Fx18` (R155): each is one write of a register or
of a timer followed by the advance of `pc`, but for the wait with no key down, which leaves the state as it is. -/
namespace Sys2Proof.Machine

open Sys2Proof.Laws

/-- A key number is below 256, so the byte that `Fx0A` writes holds it unreduced. -/
theorem toNat_ofNat_nibble (k : Nibble) : (BitVec.ofNat 8 k.val).toNat = k.val := by
  rw [BitVec.toNat_ofNat, Nat.mod_eq_of_lt (by omega)]

section KeyWait

variable {s : State}

/-- `Fx0A` with the least pressed key `k` is the register write of its number. -/
theorem exec_ldVxKey_of_least (x : Nibble) {k : Nibble} (hk : s.key k = true) (hleast : ∀ j, j < k → s.key j = false) :
    exec (.ldVxKey x) s = .next (s.setV x (BitVec.ofNat 8 k.val)).advance := by
  simp only [exec, execLdVxKey, s.firstKeyDown_eq_some hk hleast]

/-- `Fx0A` with no key pressed leaves the state, `pc` included, as it is. -/
theorem exec_ldVxKey_of_none (x : Nibble) (h : ∀ k, s.key k = false) : exec (.ldVxKey x) s = .next s := by
  simp only [exec, execLdVxKey, s.firstKeyDown_eq_none.mpr h]

end KeyWait

section TimerWrite

variable (s : State)

theorem exec_ldVxDt (x : Nibble) : exec (.ldVxDt x) s = .next (s.setV x s.dt).advance := rfl
theorem exec_ldDtVx (x : Nibble) : exec (.ldDtVx x) s = .next (s.setDt (s.getV x)).advance := rfl
theorem exec_ldStVx (x : Nibble) : exec (.ldStVx x) s = .next (s.setSt (s.getV x)).advance := rfl

/-- The frame of a delay timer write and the advance: all but `DT` and `pc` is kept, every cell of memory included. -/
theorem State.setDt_advance_frame (b : Byte) :
    (s.setDt b).advance = { s with dt := b, pc := s.pc + 2 } ∧ sameMemory s (s.setDt b).advance :=
  ⟨rfl, fun _ => rfl⟩

/-- The frame of a sound timer write and the advance: all but `ST` and `pc` is kept, every cell of memory included. -/
theorem State.setSt_advance_frame (b : Byte) :
    (s.setSt b).advance = { s with st := b, pc := s.pc + 2 } ∧ sameMemory s (s.setSt b).advance :=
  ⟨rfl, fun _ => rfl⟩

end TimerWrite

/-- Settles O29: with a key down `Fx0A` is the register write of the number of the least one, and with none it is no change. -/
theorem keyWaitTakesTheLeastKey : Obligations.KeyWaitTakesTheLeastKey := by
  refine ⟨?decode, fun x s => ⟨fun k hk hleast => ?pressed, fun hnone => ?waiting⟩⟩
  case decode => exact decodesTo_of_encode_wordXkk (fun _ => rfl) EncodeRoundTrip.ldVxKey
  case pressed =>
    refine ⟨_, exec_ldVxKey_of_least x hk hleast, ?_, s.setV_advance_frame x _⟩
    rw [State.getV_setV_advance_self, toNat_ofNat_nibble]
  case waiting => exact exec_ldVxKey_of_none x hnone

/-- Settles O30: `Fx07` is the register write of `DT`, `Fx15` and `Fx18` are the writes of `DT` and of `ST` from the register. -/
theorem timersAreReadAndSet : Obligations.TimersAreReadAndSet := by
  refine ⟨?decodeLdVxDt, ?decodeLdDtVx, ?decodeLdStVx, fun x s => ⟨?ldVxDt, ?ldDtVx, ?ldStVx⟩⟩
  case decodeLdVxDt => exact decodesTo_of_encode_wordXkk (fun _ => rfl) EncodeRoundTrip.ldVxDt
  case decodeLdDtVx => exact decodesTo_of_encode_wordXkk (fun _ => rfl) EncodeRoundTrip.ldDtVx
  case decodeLdStVx => exact decodesTo_of_encode_wordXkk (fun _ => rfl) EncodeRoundTrip.ldStVx
  case ldVxDt => exact ⟨_, exec_ldVxDt s x, s.getV_setV_advance_self x _, s.setV_advance_frame x _⟩
  case ldDtVx => exact ⟨_, exec_ldDtVx s x, s.setDt_advance_frame _⟩
  case ldStVx => exact ⟨_, exec_ldStVx s x, s.setSt_advance_frame _⟩

end Sys2Proof.Machine
end

section
/-! LOAD of a program image (R192, R193): on a core that has not faulted it is one block store of the image's first 3584 bytes from `0x200` up. -/
namespace Sys2Proof.Machine

section BlockStore

variable (s : State)

/-- A read within a block store gives the block's byte. -/
theorem State.readMem_writeBytes_of_lt (a : Nat) {k : Nat} {bs : List Byte} (h : k < bs.length) :
    (s.writeBytes a bs).readMem (a + k) = bs.getD k 0 := by
  rw [State.readMem_writeBytes, if_pos (by omega), Nat.add_sub_cancel_left]

/-- A block store keeps the cells below it and those from its end upward. -/
theorem State.readMem_writeBytes_of_outside {a b : Nat} {bs : List Byte} (h : b < a ∨ a + bs.length ≤ b) :
    (s.writeBytes a bs).readMem b = s.readMem b := by
  rw [State.readMem_writeBytes, if_neg (by omega)]

/-- LOAD of a core that has not faulted (R192, R193). -/
theorem State.event_load_of_running (image : List Byte) (h : s.faultCause = 0) :
    s.event (.load image) = .next (s.writeBytes 0x200 (image.take 3584)) := by
  have hf : s.faulted = false := s.faulted_eq_false.mpr h
  simp only [State.event, State.loadEvent, hf, Bool.false_eq_true, if_false, Config.progBase, Config.progMax]

end BlockStore

/-- Settles O48: LOAD is the block store of the image cut to 3584 bytes, which ends at `0x200` plus the smaller of the two lengths. -/
theorem loadPlacesTheImageAndTruncates : Obligations.LoadPlacesTheImageAndTruncates := by
  intro s image hs
  have hlen : (image.take 3584).length = min image.length 3584 := by rw [List.length_take, Nat.min_comm]
  refine ⟨_, s.event_load_of_running image hs, fun k hk hmax => ?placed, fun a ha => ?kept, s.writeBytes_eq _ _⟩
  case placed =>
    have hin : k < (image.take 3584).length := by omega
    rw [s.readMem_writeBytes_of_lt 0x200 hin, List.getD_eq_getElem?_getD, List.getD_eq_getElem?_getD, List.getElem?_take_of_lt hmax]
  case kept =>
    rw [← hlen] at ha
    exact s.readMem_writeBytes_of_outside ha

end Sys2Proof.Machine
end

section
/-! The decoder and the encoder are inverse to each other (R74 to R76, R83), and both agree with the opcode map (R78) and with the families of
illegal words (R82). -/
namespace Sys2Proof

open Sys2Proof.Laws

/-- The word of an instruction decodes to it: the round trip of each row of the opcode map. -/
theorem decode_encode (i : Instr) : decode (encode i) = .ok i :=
  match i with
  | .cls => EncodeRoundTrip.cls
  | .ret => EncodeRoundTrip.ret
  | .jp nnn => EncodeRoundTrip.jp nnn
  | .call nnn => EncodeRoundTrip.call nnn
  | .seImm x kk => EncodeRoundTrip.seImm x kk
  | .sneImm x kk => EncodeRoundTrip.sneImm x kk
  | .seReg x y => EncodeRoundTrip.seReg x y
  | .ldImm x kk => EncodeRoundTrip.ldImm x kk
  | .addImm x kk => EncodeRoundTrip.addImm x kk
  | .ldReg x y => EncodeRoundTrip.ldReg x y
  | .orReg x y => EncodeRoundTrip.orReg x y
  | .andReg x y => EncodeRoundTrip.andReg x y
  | .xorReg x y => EncodeRoundTrip.xorReg x y
  | .addReg x y => EncodeRoundTrip.addReg x y
  | .subReg x y => EncodeRoundTrip.subReg x y
  | .shr x y => EncodeRoundTrip.shr x y
  | .subn x y => EncodeRoundTrip.subn x y
  | .shl x y => EncodeRoundTrip.shl x y
  | .sneReg x y => EncodeRoundTrip.sneReg x y
  | .ldI nnn => EncodeRoundTrip.ldI nnn
  | .jpV0 nnn => EncodeRoundTrip.jpV0 nnn
  | .rnd x kk => EncodeRoundTrip.rnd x kk
  | .drw x y n => EncodeRoundTrip.drw x y n
  | .skp x => EncodeRoundTrip.skp x
  | .sknp x => EncodeRoundTrip.sknp x
  | .ldVxDt x => EncodeRoundTrip.ldVxDt x
  | .ldVxKey x => EncodeRoundTrip.ldVxKey x
  | .ldDtVx x => EncodeRoundTrip.ldDtVx x
  | .ldStVx x => EncodeRoundTrip.ldStVx x
  | .addI x => EncodeRoundTrip.addI x
  | .ldFont x => EncodeRoundTrip.ldFont x
  | .ldBcd x => EncodeRoundTrip.ldBcd x
  | .storeRegs x => EncodeRoundTrip.storeRegs x
  | .loadRegs x => EncodeRoundTrip.loadRegs x

/-- Two bytes are decoded as the word they join to, whatever follows them (R53, R73). -/
theorem decodeBytes_of_decode {a b : Byte} {i : Instr} (rest : List Byte) (h : decode (joinBytes a b) = .ok i) :
    decodeBytes (a :: b :: rest) = .ok (i, rest) := by
  simp only [decodeBytes, h]

section WordOfFields

variable {w : Word} {op : BitVec 4}

/-- A word of a known category is the one that its format builds from its other fields. -/
theorem wordNnn_of_op (hop : fieldOp w = op) : wordNnn op (fieldNnn w) = w := by
  rw [← hop, eq_wordNnn]

theorem wordXkk_of_op (hop : fieldOp w = op) : wordXkk op (fieldX w) (fieldKk w) = w := by
  rw [← hop, eq_wordXkk]

theorem wordXyn_of_op (hop : fieldOp w = op) : wordXyn op (fieldX w) (fieldY w) (fieldN w) = w := by
  rw [← hop, eq_wordXyn]

/-- The same for the formats whose low byte or low nibble is a sub-opcode. -/
theorem wordXkk_of_op_kk {kk : Byte} (hop : fieldOp w = op) (hkk : fieldKk w = kk) : wordXkk op (fieldX w) kk = w := by
  rw [← hkk, wordXkk_of_op hop]

theorem wordXyn_of_op_n {n : Nibble} (hop : fieldOp w = op) (hn : fieldN w = n) : wordXyn op (fieldX w) (fieldY w) n = w := by
  rw [← hn, wordXyn_of_op hop]

end WordOfFields

section EncodeOfDecode

variable {w : Word} {i : Instr}

theorem encode_of_decode0 (h : decode0 w = .ok i) : encode i = w := by
  unfold decode0 at h
  split_ifs at h with hcls hret
  · cases h; exact hcls.symm
  · cases h; exact hret.symm

/-- Each arm of the match on the low nibble gives the sub-opcode that the encoder writes there. -/
theorem encode_of_decode8 (hop : fieldOp w = 0x8) (h : decode8 w = .ok i) : encode i = w := by
  unfold decode8 at h
  split at h <;> cases h <;> exact wordXyn_of_op_n hop (Fin.ext (by assumption))

theorem encode_of_decodeE (hop : fieldOp w = 0xE) (h : decodeE w = .ok i) : encode i = w := by
  unfold decodeE at h
  split at h <;> cases h <;> exact wordXkk_of_op_kk hop (BitVec.eq_of_toNat_eq (by assumption))

theorem encode_of_decodeF (hop : fieldOp w = 0xF) (h : decodeF w = .ok i) : encode i = w := by
  unfold decodeF at h
  split at h <;> cases h <;> exact wordXkk_of_op_kk hop (BitVec.eq_of_toNat_eq (by assumption))

/-- A legal word is the encoding of what it decodes to, category by category (R76). -/
theorem encode_of_decode (h : decode w = .ok i) : encode i = w := by
  rcases fieldOp_cases (fieldOp w) with
    hop | hop | hop | hop | hop | hop | hop | hop | hop | hop | hop | hop | hop | hop | hop | hop
  · rw [decode_of_op0 w hop] at h; exact encode_of_decode0 h
  · rw [decode_of_op1 w hop] at h; cases h; exact wordNnn_of_op hop
  · rw [decode_of_op2 w hop] at h; cases h; exact wordNnn_of_op hop
  · rw [decode_of_op3 w hop] at h; cases h; exact wordXkk_of_op hop
  · rw [decode_of_op4 w hop] at h; cases h; exact wordXkk_of_op hop
  · rw [decode_of_op5 w hop] at h
    split_ifs at h with hn
    cases h; exact wordXyn_of_op_n hop hn
  · rw [decode_of_op6 w hop] at h; cases h; exact wordXkk_of_op hop
  · rw [decode_of_op7 w hop] at h; cases h; exact wordXkk_of_op hop
  · rw [decode_of_op8 w hop] at h; exact encode_of_decode8 hop h
  · rw [decode_of_op9 w hop] at h
    split_ifs at h with hn
    cases h; exact wordXyn_of_op_n hop hn
  · rw [decode_of_opA w hop] at h; cases h; exact wordNnn_of_op hop
  · rw [decode_of_opB w hop] at h; cases h; exact wordNnn_of_op hop
  · rw [decode_of_opC w hop] at h; cases h; exact wordXkk_of_op hop
  · rw [decode_of_opD w hop] at h; cases h; exact wordXyn_of_op hop
  · rw [decode_of_opE w hop] at h; exact encode_of_decodeE hop h
  · rw [decode_of_opF w hop] at h; exact encode_of_decodeF hop h

end EncodeOfDecode

section OpcodeMap

/-- Two rows that one word selects are the same row: different rows fix some bit in both masks to different values. -/
theorem row_unique {r r' : OpcodeRow} {w : Word} (hr : r ∈ opcodeMap) (hr' : r' ∈ opcodeMap) (h : r.selects w = true)
    (h' : r'.selects w = true) : r = r' := by
  have disjoint : ∀ a ∈ opcodeMap, ∀ b ∈ opcodeMap, a.value &&& b.mask = b.value &&& a.mask → a = b := by decide
  have hv : w &&& r.mask = r.value := beq_iff_eq.mp h
  have hv' : w &&& r'.mask = r'.value := beq_iff_eq.mp h'
  refine disjoint r hr r' hr' ?_
  rw [← hv, ← hv', BitVec.and_assoc, BitVec.and_assoc, BitVec.and_comm r.mask]

/-- The row at an instruction's place selects the word of the instruction. -/
theorem rowOf_selects_encode (i : Instr) : (opcodeMap[(rowOf i).val]'(rowOf i).isLt).selects (encode i) = true :=
  match i with
  | .cls | .ret => by decide
  | .jp _ | .call _ | .ldI _ | .jpV0 _ => (selects_op _ _).mpr (fieldOp_wordNnn _ _)
  | .seImm _ _ | .sneImm _ _ | .ldImm _ _ | .addImm _ _ | .rnd _ _ => (selects_op _ _).mpr (fieldOp_wordXkk _ _ _)
  | .drw _ _ _ => (selects_op _ _).mpr (fieldOp_wordXyn _ _ _ _)
  | .seReg _ _ | .ldReg _ _ | .orReg _ _ | .andReg _ _ | .xorReg _ _ | .addReg _ _ | .subReg _ _ | .shr _ _ | .subn _ _ | .shl _ _
  | .sneReg _ _ => (selects_opN _ _ _).mpr ⟨fieldOp_wordXyn _ _ _ _, fieldN_wordXyn _ _ _ _⟩
  | .skp _ | .sknp _ | .ldVxDt _ | .ldVxKey _ | .ldDtVx _ | .ldStVx _ | .addI _ | .ldFont _ | .ldBcd _ | .storeRegs _ | .loadRegs _ =>
    (selects_opKk _ _ _).mpr ⟨fieldOp_wordXkk _ _ _, fieldKk_wordXkk _ _ _⟩

/-- A word selected by a row with a sub-opcode is the word of the row's format with that word's register fields. -/
theorem encode_of_selects_opN {w : Word} {op : BitVec 4} {n : Nibble} (h : (OpcodeRow.mk 0xF00F (wordXyn op 0 0 n)).selects w = true) :
    wordXyn op (fieldX w) (fieldY w) n = w := by
  obtain ⟨hop, hn⟩ := (selects_opN w op n).mp h
  exact wordXyn_of_op_n hop hn

theorem encode_of_selects_opKk {w : Word} {op : BitVec 4} {kk : Byte} (h : (OpcodeRow.mk 0xF0FF (wordXkk op 0 kk)).selects w = true) :
    wordXkk op (fieldX w) kk = w := by
  obtain ⟨hop, hkk⟩ := (selects_opKk w op kk).mp h
  exact wordXkk_of_op_kk hop hkk

/-- A word that a row selects is the word of an instruction: row by row, the instruction that takes its operands from the word's fields. -/
theorem exists_encode_of_selects (w : Word) : ∀ row ∈ opcodeMap, row.selects w = true → ∃ i, encode i = w := by
  simp only [opcodeMap, List.cons_append, List.nil_append, List.forall_mem_cons]
  exact ⟨
    fun h => ⟨.cls, ((selects_all w _).mp h).symm⟩,
    fun h => ⟨.ret, ((selects_all w _).mp h).symm⟩,
    fun h => ⟨.jp (fieldNnn w), wordNnn_of_op ((selects_op w _).mp h)⟩,
    fun h => ⟨.call (fieldNnn w), wordNnn_of_op ((selects_op w _).mp h)⟩,
    fun h => ⟨.seImm (fieldX w) (fieldKk w), wordXkk_of_op ((selects_op w _).mp h)⟩,
    fun h => ⟨.sneImm (fieldX w) (fieldKk w), wordXkk_of_op ((selects_op w _).mp h)⟩,
    fun h => ⟨.seReg (fieldX w) (fieldY w), encode_of_selects_opN h⟩,
    fun h => ⟨.ldImm (fieldX w) (fieldKk w), wordXkk_of_op ((selects_op w _).mp h)⟩,
    fun h => ⟨.addImm (fieldX w) (fieldKk w), wordXkk_of_op ((selects_op w _).mp h)⟩,
    fun h => ⟨.ldReg (fieldX w) (fieldY w), encode_of_selects_opN h⟩,
    fun h => ⟨.orReg (fieldX w) (fieldY w), encode_of_selects_opN h⟩,
    fun h => ⟨.andReg (fieldX w) (fieldY w), encode_of_selects_opN h⟩,
    fun h => ⟨.xorReg (fieldX w) (fieldY w), encode_of_selects_opN h⟩,
    fun h => ⟨.addReg (fieldX w) (fieldY w), encode_of_selects_opN h⟩,
    fun h => ⟨.subReg (fieldX w) (fieldY w), encode_of_selects_opN h⟩,
    fun h => ⟨.shr (fieldX w) (fieldY w), encode_of_selects_opN h⟩,
    fun h => ⟨.subn (fieldX w) (fieldY w), encode_of_selects_opN h⟩,
    fun h => ⟨.shl (fieldX w) (fieldY w), encode_of_selects_opN h⟩,
    fun h => ⟨.sneReg (fieldX w) (fieldY w), encode_of_selects_opN h⟩,
    fun h => ⟨.ldI (fieldNnn w), wordNnn_of_op ((selects_op w _).mp h)⟩,
    fun h => ⟨.jpV0 (fieldNnn w), wordNnn_of_op ((selects_op w _).mp h)⟩,
    fun h => ⟨.rnd (fieldX w) (fieldKk w), wordXkk_of_op ((selects_op w _).mp h)⟩,
    fun h => ⟨.drw (fieldX w) (fieldY w) (fieldN w), wordXyn_of_op ((selects_op w _).mp h)⟩,
    fun h => ⟨.skp (fieldX w), encode_of_selects_opKk h⟩,
    fun h => ⟨.sknp (fieldX w), encode_of_selects_opKk h⟩,
    fun h => ⟨.ldVxDt (fieldX w), encode_of_selects_opKk h⟩,
    fun h => ⟨.ldVxKey (fieldX w), encode_of_selects_opKk h⟩,
    fun h => ⟨.ldDtVx (fieldX w), encode_of_selects_opKk h⟩,
    fun h => ⟨.ldStVx (fieldX w), encode_of_selects_opKk h⟩,
    fun h => ⟨.addI (fieldX w), encode_of_selects_opKk h⟩,
    fun h => ⟨.ldFont (fieldX w), encode_of_selects_opKk h⟩,
    fun h => ⟨.ldBcd (fieldX w), encode_of_selects_opKk h⟩,
    fun h => ⟨.storeRegs (fieldX w), encode_of_selects_opKk h⟩,
    fun h => ⟨.loadRegs (fieldX w), encode_of_selects_opKk h⟩,
    fun _ h => absurd h List.not_mem_nil⟩

/-- A word that decodes selects the row of its instruction, and no other. -/
theorem selects_iff_of_decode {w : Word} {i : Instr} (h : decode w = .ok i) {row : OpcodeRow} (hrow : row ∈ opcodeMap) :
    row.selects w = true ↔ opcodeMap[(rowOf i).val]? = some row := by
  have hlt : (rowOf i).val < opcodeMap.length := (rowOf i).isLt
  have hsel := rowOf_selects_encode i
  rw [encode_of_decode h] at hsel
  rw [List.getElem?_eq_getElem hlt, Option.some_inj]
  constructor
  · intro hw
    exact row_unique (List.getElem_mem hlt) hrow hsel hw
  · rintro rfl
    exact hsel

/-- A word that the decoder refuses selects no row: a selected word is the word of an instruction, which decodes. -/
theorem selects_eq_false_of_decode_error {w : Word} {e : DecodeError} (h : decode w = .error e) {row : OpcodeRow} (hrow : row ∈ opcodeMap) :
    row.selects w = false := by
  by_contra hsel
  obtain ⟨i, rfl⟩ := exists_encode_of_selects w row hrow (by simpa using hsel)
  rw [decode_encode] at h
  cases h

end OpcodeMap

/-- Settles O2: the bytes of a word join to the word, and the word of an instruction decodes to it. -/
theorem decodingAnEncodedInstructionGivesItBack : Obligations.DecodingAnEncodedInstructionGivesItBack := by
  intro i rest
  refine decodeBytes_of_decode rest ?_
  rw [joinBytes_firstByte_secondByte, decode_encode]

/-- Settles O3. -/
theorem encodingADecodedWordGivesItBack : Obligations.EncodingADecodedWordGivesItBack := fun _ _ => encode_of_decode

/-- Settles O4. -/
theorem aWordSelectsTheRowOfItsInstruction : Obligations.AWordSelectsTheRowOfItsInstruction :=
  ⟨fun _ _ h _ hrow => selects_iff_of_decode h hrow, fun _ _ h _ hrow => selects_eq_false_of_decode_error h hrow⟩

/-- Settles O1, word by word. -/
theorem wordsOfTheSpecDecode : Obligations.WordsOfTheSpecDecode := by
  refine ⟨?cls, ?call, ?addReg, ?ldI, ?drw, ?skp, ?loadRegs, ?bytes⟩ <;> rfl

end Sys2Proof
end

section
/-! The illegal words: the decoder refuses exactly the words that `wellFormedWord` refuses (R81), and these are the six families of R82. -/
namespace Sys2Proof

variable {w : Word}

theorem decode0_error_iff : (∃ e, decode0 w = .error e) ↔ (w == 0x00E0 || w == 0x00EE) = false := by
  unfold decode0
  split_ifs with hcls hret <;> simp [*]

/-- The low nibble is a sub-opcode of the list when an arm of the match takes it, and the last arm takes the nibbles of no other arm. -/
theorem decode8_error_iff : (∃ e, decode8 w = .error e) ↔ category8.contains (fieldN w) = false := by
  unfold decode8
  generalize fieldN w = n
  fin_cases n <;> simp [category8]

theorem decodeE_error_iff : (∃ e, decodeE w = .error e) ↔ categoryE.contains (fieldKk w) = false := by
  unfold decodeE
  split <;> simp_all [categoryE, ← BitVec.toNat_inj]

theorem decodeF_error_iff : (∃ e, decodeF w = .error e) ↔ categoryF.contains (fieldKk w) = false := by
  unfold decodeF
  split <;> simp_all [categoryF, ← BitVec.toNat_inj]

/-- The decoder and `wellFormedWord` refuse the same words, category by category. -/
theorem decode_error_iff : (∃ e, decode w = .error e) ↔ wellFormedWord w = false := by
  unfold wellFormedWord
  rcases fieldOp_cases (fieldOp w) with
    hop | hop | hop | hop | hop | hop | hop | hop | hop | hop | hop | hop | hop | hop | hop | hop
  · rw [decode_of_op0 w hop, decode0_error_iff]; simp [hop]
  · rw [decode_of_op1 w hop]; simp [hop]
  · rw [decode_of_op2 w hop]; simp [hop]
  · rw [decode_of_op3 w hop]; simp [hop]
  · rw [decode_of_op4 w hop]; simp [hop]
  · rw [decode_of_op5 w hop]; by_cases hn : fieldN w = 0 <;> simp [hop, hn]
  · rw [decode_of_op6 w hop]; simp [hop]
  · rw [decode_of_op7 w hop]; simp [hop]
  · rw [decode_of_op8 w hop, decode8_error_iff]; simp [hop]
  · rw [decode_of_op9 w hop]; by_cases hn : fieldN w = 0 <;> simp [hop, hn]
  · rw [decode_of_opA w hop]; simp [hop]
  · rw [decode_of_opB w hop]; simp [hop]
  · rw [decode_of_opC w hop]; simp [hop]
  · rw [decode_of_opD w hop]; simp [hop]
  · rw [decode_of_opE w hop, decodeE_error_iff]; simp [hop]
  · rw [decode_of_opF w hop, decodeF_error_iff]; simp [hop]

section Numbers

variable (w)

theorem fieldOp_eq_iff (op : BitVec 4) : fieldOp w = op ↔ w.toNat / 4096 = op.toNat := by
  rw [← fieldOp_toNat, BitVec.toNat_inj]

theorem fieldN_eq_iff (n : Nibble) : fieldN w = n ↔ w.toNat % 16 = n.val := by
  rw [← fieldN_val, Fin.ext_iff]

theorem fieldKk_eq_iff (kk : Byte) : fieldKk w = kk ↔ w.toNat % 256 = kk.toNat := by
  rw [← fieldKk_toNat, BitVec.toNat_inj]

theorem word_eq_iff (v : Word) : w = v ↔ w.toNat = v.toNat := BitVec.toNat_inj.symm

/-- The low nibbles that are no sub-opcode of category 8. -/
theorem category8_contains_eq_false_iff :
    category8.contains (fieldN w) = false ↔ w.toNat % 16 ∈ [0x8, 0x9, 0xA, 0xB, 0xC, 0xD, 0xF] := by
  rw [← fieldN_val]
  generalize fieldN w = n
  revert n
  decide

/-- The low bytes that are no sub-opcode of categories E and F. -/
theorem categoryE_contains_eq_false_iff : categoryE.contains (fieldKk w) = false ↔ w.toNat % 256 ∉ [0x9E, 0xA1] := by
  simp [categoryE, fieldKk_eq_iff]

theorem categoryF_contains_eq_false_iff :
    categoryF.contains (fieldKk w) = false ↔ w.toNat % 256 ∉ [0x07, 0x0A, 0x15, 0x18, 0x1E, 0x29, 0x33, 0x55, 0x65] := by
  simp [categoryF, fieldKk_eq_iff]

end Numbers

/-- What `wellFormedWord` refuses, over the numbers: the six families of R82. -/
theorem wellFormedWord_eq_false_iff : wellFormedWord w = false ↔
    (w.toNat / 4096 = 0x0 ∧ w.toNat ≠ 0x0E0 ∧ w.toNat ≠ 0x0EE)
    ∨ (w.toNat / 4096 = 0x5 ∧ w.toNat % 16 ≠ 0)
    ∨ (w.toNat / 4096 = 0x8 ∧ w.toNat % 16 ∈ [0x8, 0x9, 0xA, 0xB, 0xC, 0xD, 0xF])
    ∨ (w.toNat / 4096 = 0x9 ∧ w.toNat % 16 ≠ 0)
    ∨ (w.toNat / 4096 = 0xE ∧ w.toNat % 256 ∉ [0x9E, 0xA1])
    ∨ (w.toNat / 4096 = 0xF ∧ w.toNat % 256 ∉ [0x07, 0x0A, 0x15, 0x18, 0x1E, 0x29, 0x33, 0x55, 0x65]) := by
  simp only [wellFormedWord, Bool.and_eq_false_iff, Bool.or_eq_false_iff, bne_eq_false_iff_eq, beq_eq_false_iff_ne,
    category8_contains_eq_false_iff, categoryE_contains_eq_false_iff, categoryF_contains_eq_false_iff, fieldOp_eq_iff, ne_eq,
    fieldN_eq_iff, word_eq_iff w, or_assoc, and_assoc]
  rfl

end Sys2Proof
end

section
/-! The STEP event (R70, R71) by what its fetch and decode give, and the faults it can raise (R161 to R172). -/
namespace Sys2Proof.Machine

section FetchDecode

variable {s : State}

/-- With `pc` in range the fetch and decode are those of the word of the two bytes at `pc` (R70, R71). -/
theorem State.fetchDecode_of_decode_ok {i : Instr} (hpc : s.pc.toNat ≤ 4094)
    (h : decode (joinBytes (s.readMem s.pc.toNat) (s.readMem (s.pc.toNat + 1))) = .ok i) : s.fetchDecode = .ok i := by
  simp only [State.fetchDecode, s.fetch_of_le hpc, h]

theorem State.fetchDecode_of_decode_error {e : DecodeError} (hpc : s.pc.toNat ≤ 4094)
    (h : decode (joinBytes (s.readMem s.pc.toNat) (s.readMem (s.pc.toNat + 1))) = .error e) :
    s.fetchDecode = .error .unknownOpcode := by
  simp only [State.fetchDecode, s.fetch_of_le hpc, h]

theorem State.fetchDecode_of_gt (hpc : 4094 < s.pc.toNat) : s.fetchDecode = .error .pcOutOfRange := by
  simp only [State.fetchDecode, s.fetch_of_gt hpc]

/-- Bytes that decode followed by nothing join to a word that decodes. -/
theorem decode_of_decodeBytes {a b : Byte} {i : Instr} {rest : List Byte} (h : decodeBytes [a, b] = .ok (i, rest)) :
    decode (joinBytes a b) = .ok i := by
  simp only [decodeBytes] at h
  split at h
  · rename_i j hj
    cases h
    exact hj
  · cases h

end FetchDecode

section StepRules

variable {s : State} (r : Byte)

/-- A faulted core ignores STEP (R40, D16). -/
theorem State.stepEvent_of_faulted (h : s.faultCause ≠ 0) : s.stepEvent r = .next s := by
  rw [State.stepEvent, if_pos (s.faulted_eq_true.mpr h)]

theorem State.stepEvent_of_error {c : Cause} (hs : s.faultCause = 0) (h : s.fetchDecode = .error c) :
    s.stepEvent r = .next ((s.setRnd r).raise c) := by
  have hf : s.faulted = false := s.faulted_eq_false.mpr hs
  simp only [State.stepEvent, hf, Bool.false_eq_true, if_false, h]

theorem State.stepEvent_of_ok {i : Instr} (hs : s.faultCause = 0) (h : s.fetchDecode = .ok i) :
    s.stepEvent r = exec i (s.setRnd r) := by
  have hf : s.faulted = false := s.faulted_eq_false.mpr hs
  simp only [State.stepEvent, hf, Bool.false_eq_true, if_false, h]

end StepRules

/-- Settles O6. -/
theorem stepFetchesDecodesExecutes : Obligations.StepFetchesDecodesExecutes := by
  intro s r
  refine ⟨?faulted, ?outOfRange, fun w hs hpc hw => ?inRange⟩
  case faulted => exact s.stepEvent_of_faulted r
  case outOfRange => exact fun hs hpc => s.stepEvent_of_error r hs (s.fetchDecode_of_gt hpc)
  case inRange =>
    obtain rfl := eq_joinBytes hw
    exact ⟨fun e he => s.stepEvent_of_error r hs (s.fetchDecode_of_decode_error hpc he),
      fun i hi => s.stepEvent_of_ok r hs (s.fetchDecode_of_decode_ok hpc hi)⟩

/-- Settles O5: the refused words are those of `wellFormedWord`, and the STEP's answer is the middle case of O6. -/
theorem illegalWordsRaiseUnknownOpcode : Obligations.IllegalWordsRaiseUnknownOpcode := by
  refine ⟨fun w => ?families, fun w => ?wellFormed, fun s r w e hs hpc hw he => ?step⟩
  case families => rw [decode_error_iff, wellFormedWord_eq_false_iff]
  case wellFormed => exact decode_error_iff.symm
  case step =>
    obtain ⟨-, -, hstep⟩ := stepFetchesDecodesExecutes s r
    exact (hstep w hs hpc hw).1 e he

section MachineStep

variable {s : State}

/-- The machine's step with an event queued, and with none (R7, logs 3 and 4). -/
theorem step_of_cons {e : Event} {es : List Event} (h : s.hostEvents = e :: es) : step s = State.event { s with hostEvents := es } e := by
  simp only [step, h]

theorem step_of_nil (h : s.hostEvents = []) :
    step s = State.stepEvent { s with draws := s.draws + 1 } (Config.randomByte s.draws) := by
  simp only [step, h]

end MachineStep

/-- Settles O7: the state that the event runs on has the `pc`, the memory and the cause of the one before, so its fetch decodes the same word. -/
theorem machineStepRunsTheDecodedInstruction : Obligations.MachineStepRunsTheDecodedInstruction := by
  refine ⟨fun s e es => step_of_cons, fun s => step_of_nil, fun s i rest hs hpc hbytes => ?decoded⟩
  case decoded =>
    have hfd : s.fetchDecode = .ok i := s.fetchDecode_of_decode_ok hpc (decode_of_decodeBytes hbytes)
    refine ⟨fun hnil => ?free, fun r es hcons => ?queued⟩
    case free => rw [step_of_nil hnil]; exact State.stepEvent_of_ok (s := { s with draws := s.draws + 1 }) _ hs hfd
    case queued => rw [step_of_cons hcons]; exact State.stepEvent_of_ok (s := { s with hostEvents := es }) r hs hfd

section Faulted

variable {s : State}

theorem State.tickEvent_of_faulted (h : s.faultCause ≠ 0) : s.tickEvent = s := if_pos (s.faulted_eq_true.mpr h)

theorem State.loadEvent_of_faulted (image : List Byte) (h : s.faultCause ≠ 0) : s.loadEvent image = s :=
  if_pos (s.faulted_eq_true.mpr h)

end Faulted

/-- Settles O8: each event of a faulted core but RESET and KEY is no change, KEY writes only a key, and RESET clears the cause. -/
theorem aFaultedCoreIsFrozenUntilReset : Obligations.AFaultedCoreIsFrozenUntilReset := by
  refine ⟨fun s c => ⟨rfl, c.code_ne_zero⟩, fun s r image hs => ?frozen, fun s t e hs hreset he => ?kept,
    fun s => ⟨_, rfl, s.resetEvent_faultCause⟩⟩
  case frozen =>
    exact ⟨s.stepEvent_of_faulted r hs, congrArg _ (s.tickEvent_of_faulted hs), congrArg _ (s.loadEvent_of_faulted image hs), rfl⟩
  case kept =>
    cases e with
    | reset => exact absurd rfl hreset
    | load image => rw [State.event, s.loadEvent_of_faulted image hs] at he; cases he; rfl
    | step r => rw [State.event, s.stepEvent_of_faulted r hs] at he; cases he; rfl
    | tick => rw [State.event, s.tickEvent_of_faulted hs] at he; cases he; rfl
    | key k down => cases he; rfl
    | query => cases he; rfl

/-- Settles O9: a fault of the fetch, of the decode or of the execution is a `raise`. -/
theorem faultsArePrecise : Obligations.FaultsArePrecise := by
  intro s t r hs h ht
  rcases State.stepEvent_cases hs h with ⟨c, -, rfl⟩ | ⟨i, -, hi⟩
  · rfl
  · rcases exec_faultOf hi with ⟨c, -, rfl⟩ | ⟨-, hkeep⟩
    · rfl
    · exact absurd (hkeep.trans hs) ht

section FaultCodes

variable {s : State}

/-- The fault that a STEP of a running core raises, if any: that of its fetch or decode, else that of the execution (R170). -/
def State.stepFault (s : State) : Option Cause :=
  match s.fetchDecode with
  | .error c => some c
  | .ok i => faultOf s i

theorem Cause.code_inj {c d : Cause} : c.code = d.code ↔ c = d := by
  cases c <;> cases d <;> decide

/-- A code is recorded after a STEP exactly when the STEP's fault is of that cause. -/
theorem State.stepEvent_faultCause {t : State} {r : Byte} (hs : s.faultCause = 0) (h : s.stepEvent r = .next t) :
    (∀ c : Cause, t.faultCause = c.code ↔ s.stepFault = some c) ∧ t.faultCause ≠ 7 := by
  have raised : ∀ d : Cause, t.faultCause = d.code → s.stepFault = some d →
      (∀ c : Cause, t.faultCause = c.code ↔ s.stepFault = some c) ∧ t.faultCause ≠ 7 := fun d ht hd => by
    refine ⟨fun c => ?_, ?_⟩
    · rw [ht, hd, Cause.code_inj, Option.some_inj]
    · rw [ht]; cases d <;> decide
  rcases State.stepEvent_cases hs h with ⟨d, hd, rfl⟩ | ⟨i, hi, he⟩
  · exact raised d rfl (by simp only [State.stepFault, hd])
  · have hfault : s.stepFault = faultOf (s.setRnd r) i := by simp only [State.stepFault, hi]; rfl
    rcases exec_faultOf he with ⟨d, hd, rfl⟩ | ⟨hnone, hkeep⟩
    · exact raised d rfl (hfault.trans hd)
    · have ht : t.faultCause = 0 := hkeep.trans hs
      refine ⟨fun c => ?_, by rw [ht]; decide⟩
      rw [ht, hfault, hnone]
      exact ⟨fun e => absurd e.symm c.code_ne_zero, nofun⟩

/-- The fault of a STEP is that of its fetch and decode or that of the instruction it decoded. -/
theorem State.stepFault_eq_some {c : Cause} :
    s.stepFault = some c ↔ s.fetchDecode = .error c ∨ ∃ i, s.fetchDecode = .ok i ∧ faultOf s i = some c := by
  unfold State.stepFault
  cases s.fetchDecode <;> simp

theorem State.fetchDecode_eq_pcOutOfRange : s.fetchDecode = .error .pcOutOfRange ↔ 4094 < s.pc.toNat := by
  rcases s.fetchDecode_cases with ⟨hpc, h⟩ | ⟨hpc, -, h⟩ | ⟨hpc, i, -, h⟩ <;> rw [h] <;> simp <;> omega

theorem State.fetchDecode_eq_unknownOpcode : s.fetchDecode = .error .unknownOpcode ↔
    s.pc.toNat ≤ 4094 ∧ ∃ e, decode (joinBytes (s.readMem s.pc.toNat) (s.readMem (s.pc.toNat + 1))) = .error e := by
  rcases s.fetchDecode_cases with ⟨hpc, h⟩ | ⟨hpc, he, h⟩ | ⟨hpc, i, hi, h⟩ <;> rw [h]
  · simp; omega
  · simp [hpc, he]
  · simp [hi]

/-- The fetch and the decode raise no other cause. -/
theorem State.fetchDecode_ne_error {c : Cause} (hpc : c ≠ .pcOutOfRange) (hop : c ≠ .unknownOpcode) : s.fetchDecode ≠ .error c := by
  rcases s.fetchDecode_cases with ⟨-, h⟩ | ⟨-, -, h⟩ | ⟨-, i, -, h⟩ <;> rw [h] <;> simp [hpc.symm, hop.symm]

/-- The range check fails when there is a cell and the last one lies beyond the memory (R57, R168). -/
theorem State.cellsInRange_base_eq_false (n : Nat) : cellsInRange s.base n = false ↔ 1 ≤ n ∧ 0xFFF < s.i.toNat + n - 1 := by
  rw [← Bool.not_eq_true, cellsInRange_iff, State.base]; omega

variable {i : Instr}

/-- The instructions that raise each cause of the execute stage, and when (R165, R166, R168, R169). -/
theorem faultOf_eq_stackOverflow : faultOf s i = some .stackOverflow ↔ s.sp = 16 ∧ ∃ nnn, i = .call nnn := by
  cases i <;> simp [faultOf]

theorem faultOf_eq_stackUnderflow : faultOf s i = some .stackUnderflow ↔ s.sp = 0 ∧ i = .ret := by
  cases i <;> simp [faultOf]

theorem faultOf_eq_keyIndexOutOfRange :
    faultOf s i = some .keyIndexOutOfRange ↔ ∃ x, (i = .skp x ∨ i = .sknp x) ∧ 15 < (s.getV x).toNat := by
  cases i <;> simp [faultOf] <;> omega

theorem faultOf_eq_memAddressOutOfRange : faultOf s i = some .memAddressOutOfRange ↔
    (∃ x y n : Nibble, i = .drw x y n ∧ 1 ≤ n.val ∧ 0xFFF < s.i.toNat + n.val - 1)
    ∨ (∃ x, i = .ldBcd x ∧ 0xFFF < s.i.toNat + 2)
    ∨ ∃ x : Nibble, (i = .storeRegs x ∨ i = .loadRegs x) ∧ 0xFFF < s.i.toNat + x.val := by
  cases i <;> simp [faultOf, State.cellsInRange_base_eq_false]

/-- The execution raises none of the causes of the fetch and the decode. -/
theorem faultOf_ne_of_fetch {c : Cause} (h : c = .pcOutOfRange ∨ c = .unknownOpcode) : faultOf s i ≠ some c := by
  rcases h with rfl | rfl <;> cases i <;> simp [faultOf]

end FaultCodes

/-- Settles O10: the code after a STEP is that of the STEP's fault; the fetch and decode give 4 and 1, and the execution the others. -/
theorem eachFaultHasItsCondition : Obligations.EachFaultHasItsCondition := by
  intro s t r hs h
  obtain ⟨hcode, h7⟩ := State.stepEvent_faultCause hs h
  have fetched : ∀ c : Cause, c = .pcOutOfRange ∨ c = .unknownOpcode → (t.faultCause = c.code ↔ s.fetchDecode = .error c) :=
    fun c hc => by simp [hcode, State.stepFault_eq_some, faultOf_ne_of_fetch hc]
  have executed : ∀ c : Cause, c ≠ .pcOutOfRange → c ≠ .unknownOpcode →
      (t.faultCause = c.code ↔ ∃ i, s.fetchDecode = .ok i ∧ faultOf s i = some c) :=
    fun c hpc hop => by simp [hcode, State.stepFault_eq_some, State.fetchDecode_ne_error hpc hop]
  refine ⟨?pcOutOfRange, ?unknownOpcode, ?overflow, ?underflow, ?memAddress, ?keyIndex, h7⟩
  case pcOutOfRange => exact (fetched .pcOutOfRange (.inl rfl)).trans State.fetchDecode_eq_pcOutOfRange
  case unknownOpcode => exact (fetched .unknownOpcode (.inr rfl)).trans State.fetchDecode_eq_unknownOpcode
  case overflow =>
    refine (executed .stackOverflow nofun nofun).trans ?_
    simp only [faultOf_eq_stackOverflow]
    exact ⟨fun ⟨_, hi, hsp, nnn, e⟩ => ⟨hsp, nnn, e ▸ hi⟩, fun ⟨hsp, nnn, hi⟩ => ⟨_, hi, hsp, nnn, rfl⟩⟩
  case underflow =>
    refine (executed .stackUnderflow nofun nofun).trans ?_
    simp only [faultOf_eq_stackUnderflow]
    exact ⟨fun ⟨_, hi, hsp, e⟩ => ⟨hsp, e ▸ hi⟩, fun ⟨hsp, hi⟩ => ⟨_, hi, hsp, rfl⟩⟩
  case memAddress =>
    refine (executed .memAddressOutOfRange nofun nofun).trans ?_
    simp only [faultOf_eq_memAddressOutOfRange]
    aesop
  case keyIndex =>
    refine (executed .keyIndexOutOfRange nofun nofun).trans ?_
    simp only [faultOf_eq_keyIndexOutOfRange]
    aesop
end Sys2Proof.Machine
end

section
/-! The invariant: the reset state meets it, every instruction fetched from a `pc` that passed the check keeps it, so every event does, and so
does every schedule, which therefore never stops (R6, R23, R25, R100, R161). -/
namespace Sys2Proof.Machine

section Keeps

variable {s t : State}

/-- The invariant looks at memory, the stack and its pointer, `pc` and `fault_cause`; a change of the rest keeps it. -/
theorem State.Inv.congr (h : s.Inv) (hm : t.memory = s.memory) (hf : t.font = s.font) (hs : t.sp = s.sp) (hk : t.stack = s.stack)
    (hc : t.faultCause = s.faultCause) (hp : t.pc = s.pc) : t.Inv :=
  h.of_pc hm hf hs hk hc (hp ▸ h.pc)

/-- The blanket update keeps the invariant (R72). -/
theorem State.Inv.advance_self (h : s.Inv) (hpc : s.pc.toNat ≤ 4094) : s.advance.Inv := h.advance hpc rfl rfl rfl rfl rfl rfl

/-- A block load changes only `V` registers (R135). -/
theorem State.Inv.setRegs (h : s.Inv) (bs : List Byte) : (s.setRegs bs).Inv :=
  h.congr (s.setRegs_memory bs) (s.setRegs_font bs) (s.setRegs_sp bs) (s.setRegs_stack bs) (s.setRegs_faultCause bs) (s.setRegs_pc bs)

/-- The pointer below a push and above a pop: no wrap of its five bits. -/
theorem toNat_sp_add_one {p : BitVec 5} (h : p.toNat < 16) : (p + 1).toNat = p.toNat + 1 := by
  have one : (1 : BitVec 5).toNat = 1 := rfl
  rw [BitVec.toNat_add, one]; omega

theorem toNat_sp_sub_one {p : BitVec 5} {k : Nat} (h : p.toNat = k + 1) : (p - 1).toNat = k := by
  have one : (1 : BitVec 5).toNat = 1 := rfl
  have hlt : p.toNat < 32 := p.isLt
  rw [BitVec.toNat_sub, one]; omega

/-- A call pushes its own address, which passed the fetch check, below an entry that is free (R100, R102). -/
theorem State.Inv.callTo (h : s.Inv) (hpc : s.pc.toNat ≤ 4094) (nnn : BitVec 12) (he : s.callTo (addressOf nnn) = .next t) : t.Inv := by
  rcases s.callTo_cases he with ⟨-, rfl⟩ | ⟨hroom, rfl⟩
  · exact h.raise
  · refine ⟨h.memory, ?sp, fun k => ?stack, ?pc, h.cause⟩
    case sp => rw [toNat_sp_add_one hroom]; omega
    case stack =>
      by_cases hk : s.sp.toNat = k.val
      · simp [hk, hpc]
      · simpa [hk] using h.stack k
    case pc =>
      have hlt : nnn.toNat < 4096 := nnn.isLt
      simp only [addressOf_toNat]; omega

/-- A return goes two bytes past a pushed address (R100). -/
theorem State.Inv.returnFromCall (h : s.Inv) (he : s.returnFromCall = .next t) : t.Inv := by
  rcases s.returnFromCall_cases he with ⟨-, rfl⟩ | ⟨k, hsp, rfl⟩
  · exact h.raise
  · have hle := h.sp
    have hentry := h.stack k
    refine ⟨h.memory, ?sp, h.stack, ?pc, h.cause⟩
    case sp => rw [toNat_sp_sub_one hsp]; omega
    case pc => rw [toNat_add_two _ hentry]; omega

/-- A key skip skips or raises (R150, R151). -/
theorem State.Inv.skipOnKey (h : s.Inv) (hpc : s.pc.toNat ≤ 4094) {b : Byte} {d : Bool} (he : s.skipOnKey b d = .next t) : t.Inv := by
  rcases s.skipOnKey_cases he with ⟨k, -, rfl⟩ | ⟨-, rfl⟩
  · exact h.skipIf hpc _
  · exact h.raise

/-- A checked effect keeps the invariant when its effect does under the check. -/
theorem State.Inv.checked (h : s.Inv) {ok : Bool} {c : Cause} {u : State} (he : s.checked ok c u = .next t) (hu : ok = true → u.Inv) :
    t.Inv := by
  rcases s.checked_cases he with ⟨hok, rfl⟩ | ⟨-, rfl⟩
  · exact hu hok
  · exact h.raise

/-- A jump to an address of 12 bits, or to one plus a byte, stays within `0x10FE` (R23). -/
theorem State.Inv.setPc (h : s.Inv) {a : Word} (ha : a.toNat ≤ 0x10FE) : (s.setPc a).Inv := h.of_pc rfl rfl rfl rfl rfl ha

theorem addressOf_add_widen_toNat (nnn : BitVec 12) (b : Byte) : (addressOf nnn + widen b).toNat = nnn.toNat + b.toNat := by
  have hn : nnn.toNat < 4096 := nnn.isLt
  have hb : b.toNat < 256 := b.isLt
  rw [BitVec.toNat_add, addressOf_toNat, widen_toNat, Nat.mod_eq_of_lt (by omega)]

/-- Every instruction, executed at a `pc` that passed the fetch check, keeps the invariant. The last case is the blanket update after a write of
nothing that the invariant looks at. -/
theorem exec_inv {i : Instr} (h : s.Inv) (hpc : s.pc.toNat ≤ 4094) (he : exec i s = .next t) : t.Inv := by
  cases i
  case ret => exact h.returnFromCall he
  case call nnn => exact h.callTo hpc nnn he
  case jp nnn =>
    cases he
    exact h.setPc (by rw [addressOf_toNat]; omega)
  case jpV0 nnn =>
    cases he
    exact h.setPc (by rw [addressOf_add_widen_toNat]; omega)
  case seImm | sneImm | seReg | sneReg => cases he; exact h.skipIf hpc _
  case skp | sknp => exact h.skipOnKey hpc he
  case drw x y n => exact h.checked he fun _ => h.advance hpc rfl rfl rfl rfl rfl rfl
  case ldBcd x => exact h.checked he (h.store hpc (bcdDigits _) rfl)
  case storeRegs x => exact h.checked he (h.store hpc (s.regsUpTo x) (s.length_regsUpTo x))
  case loadRegs x =>
    refine h.checked he fun _ => (h.setRegs _).advance_self ?_
    rwa [State.setRegs_pc]
  case ldVxKey x =>
    rcases execLdVxKey_cases he with ⟨k, -, -, rfl⟩ | ⟨-, rfl⟩
    · exact h.advance hpc rfl rfl rfl rfl rfl rfl
    · exact h
  all_goals
    cases he
    exact h.advance hpc rfl rfl rfl rfl rfl rfl

theorem State.resetEvent_inv (s : State) : s.resetEvent.Inv :=
  ⟨rfl, Nat.zero_le _, fun k => by simp [State.resetEvent], by simp [State.resetEvent], Nat.zero_le _⟩

/-- A LOAD writes at most the 3584 cells from `0x200` up, the last of which is the last one of memory (R192, R193). -/
theorem State.Inv.loadEvent (h : s.Inv) (image : List Byte) : (s.loadEvent image).Inv := by
  unfold State.loadEvent
  split_ifs
  · exact h
  · have hlen : (image.take Config.progMax).length ≤ 3584 := by simp [Config.progMax]
    have hfits : Config.progBase + (image.take Config.progMax).length ≤ Config.memSize := by
      simp only [Config.progBase, Config.memSize]; omega
    refine ⟨?_, by simpa using h.sp, by simpa using h.stack, by simpa using h.pc, by simpa using h.cause⟩
    simpa using s.wf_writeBytes _ _ hfits h.memory

theorem State.Inv.tickEvent (h : s.Inv) : s.tickEvent.Inv := by
  unfold State.tickEvent
  split_ifs
  · exact h
  · exact h.congr rfl rfl rfl rfl rfl rfl

/-- A STEP keeps the invariant: where it executes, `pc` passed the fetch check. -/
theorem State.Inv.stepEvent (h : s.Inv) {r : Byte} (he : s.stepEvent r = .next t) : t.Inv := by
  have hr : (s.setRnd r).Inv := h.congr rfl rfl rfl rfl rfl rfl
  by_cases hs : s.faultCause = 0
  · rcases State.stepEvent_cases hs he with ⟨c, -, rfl⟩ | ⟨i, hi, hexec⟩
    · exact hr.raise
    · have hpc : s.pc.toNat ≤ 4094 := by
        rcases s.fetchDecode_cases with ⟨-, hfd⟩ | ⟨-, -, hfd⟩ | ⟨hpc, -⟩
        · rw [hfd] at hi; cases hi
        · rw [hfd] at hi; cases hi
        · exact hpc
      exact exec_inv hr hpc hexec
  · rw [s.stepEvent_of_faulted r hs] at he
    cases he
    exact h

theorem State.Inv.event (h : s.Inv) {e : Event} (he : s.event e = .next t) : t.Inv := by
  cases e with
  | reset => cases he; exact s.resetEvent_inv
  | load image => cases he; exact h.loadEvent image
  | step r => exact h.stepEvent he
  | tick => cases he; exact h.tickEvent
  | key k down => cases he; exact h.congr rfl rfl rfl rfl rfl rfl
  | query => cases he; exact h

/-- In a state of the invariant the pointer is at most 16, so no event stops (log 6). -/
theorem State.Inv.event_answers (h : s.Inv) (e : Event) : ∃ t, s.event e = .next t := by
  cases e with
  | step r =>
    by_cases hs : s.faultCause = 0
    · cases hfd : s.fetchDecode with
      | error c => exact ⟨_, s.stepEvent_of_error r hs hfd⟩
      | ok i =>
        obtain ⟨t, ht⟩ := exec_answers i (s.setRnd r) h.sp
        exact ⟨t, (s.stepEvent_of_ok r hs hfd).trans ht⟩
    · exact ⟨s, s.stepEvent_of_faulted r hs⟩
  | reset | load | tick | key | query => exact ⟨_, rfl⟩

end Keeps

/-- Settles O12: a step is one event on a state that differs in the schedule and the draw counter, which the invariant does not look at. -/
theorem everyStepKeepsTheInvariant : Obligations.EveryStepKeepsTheInvariant := by
  intro s t h hstep
  obtain ⟨d, es, e, hevent⟩ := step_event s
  have hs : State.Inv { s with draws := d, hostEvents := es } := h.congr rfl rfl rfl rfl rfl rfl
  exact hs.event (hevent ▸ hstep)

/-- Settles O13, by induction on the schedule: its first event answers a state of the invariant. -/
theorem everyScheduleRunsToItsEnd : Obligations.EveryScheduleRunsToItsEnd := by
  intro events
  induction events with
  | nil => exact fun s h => ⟨s, rfl, h⟩
  | cons e es ih =>
    intro s h
    obtain ⟨u, hu⟩ := h.event_answers e
    obtain ⟨t, ht, hinv⟩ := ih u (h.event hu)
    exact ⟨t, by rw [runEvents, hu]; exact ht, hinv⟩

/-- Settles O11. -/
theorem resetMeetsTheInvariant : Obligations.ResetMeetsTheInvariant :=
  ⟨State.reset.resetEvent_inv, State.resetEvent_inv⟩

end Sys2Proof.Machine
end

section
/-! Calls and returns (R100, R102, R109), by the three ranges of the stack pointer. -/
namespace Sys2Proof.Machine

open Sys2Proof.Laws

section CallReturn

variable (s : State)

theorem exec_call (nnn : BitVec 12) : exec (.call nnn) s = s.callTo (addressOf nnn) := rfl

variable {s}

/-- `2nnn` with entry `k` free pushes `pc` there (R102). -/
theorem exec_call_of_room (nnn : BitVec 12) {k : Fin 16} (h : s.sp.toNat = k.val) :
    exec (.call nnn) s = .next { s with stack := s.stack.set k s.pc, sp := s.sp + 1, pc := addressOf nnn } := by
  have hroom : s.sp.toNat < 16 := by omega
  rw [exec_call, s.callTo_of_room hroom]
  simp only [h]

/-- A pushed entry holds the address, every other one is as before. -/
theorem getElem_set_stack (v : Vector Word 16) (k j : Fin 16) (a : Word) : (v.set k a)[j] = if j = k then a else v[j] := by
  simp only [Fin.getElem_fin, Vector.getElem_set, Fin.ext_iff, eq_comm]

end CallReturn

/-- Settles O21: the pop by the pointer's value, with a frame that holds by definition. -/
theorem retGoesPastTheCall : Obligations.RetGoesPastTheCall := by
  refine ⟨?decode, fun s k hsp => ?entry, fun s hsp => ?empty⟩
  case decode => exact decodesTo_of_encode_fixed EncodeRoundTrip.ret
  case entry =>
    exact ⟨_, s.returnFromCall_of_entry k hsp, toNat_sp_sub_one hsp, rfl, rfl, rfl, fun _ => rfl⟩
  case empty => exact s.returnFromCall_of_empty hsp

/-- Settles O22: the push by the pointer's value. -/
theorem callPushesItsOwnAddress : Obligations.CallPushesItsOwnAddress := by
  refine ⟨fun w h => ?decode, fun nnn s k hsp => ?room, fun nnn s hsp => ?full⟩
  case decode => exact decode_of_op2 w (fieldOp_of_and_F000 (op := 0x2) h)
  case room =>
    have hroom : s.sp.toNat < 16 := by omega
    refine ⟨_, exec_call_of_room nnn hsp, ?pushed, fun j hj => ?others, ?sp, addressOf_toNat nnn, rfl, fun _ => rfl⟩
    case pushed => rw [getElem_set_stack, if_pos rfl]
    case others => rw [getElem_set_stack, if_neg hj]
    case sp => rw [toNat_sp_add_one hroom, hsp]
  case full => exact s.callTo_of_full hsp

/-- Settles O23: the return pops the entry that the call pushed, which still holds the call's address. -/
theorem returnUndoesTheCall : Obligations.ReturnUndoesTheCall := by
  intro nnn s t u k hsp hcall husp hustack
  have hroom : s.sp.toNat < 16 := by omega
  rw [exec_call_of_room nnn hsp] at hcall
  cases hcall
  have hu : u.sp.toNat = k.val + 1 := by rw [husp, toNat_sp_add_one hroom, hsp]
  refine ⟨_, u.returnFromCall_of_entry k hu, ?pc, ?sp⟩
  case pc => simp only [hustack, getElem_set_stack, if_true]
  case sp => simp only [husp, BitVec.add_sub_cancel]

/-- Settles O24. -/
theorem anImpossibleStackPointerStops : Obligations.AnImpossibleStackPointerStops :=
  fun _ s h => ⟨s.callTo_of_above h, s.returnFromCall_of_above h⟩

end Sys2Proof.Machine
end

section
/-! Jumps (R101, R107) and the skips on two registers (R105, R106) and on a key (R150, R151): each is one write of `pc`. -/
namespace Sys2Proof.Machine

open Sys2Proof.Laws

section PcWrite

variable (s : State)

theorem exec_jp (nnn : BitVec 12) : exec (.jp nnn) s = .next (s.setPc (addressOf nnn)) := rfl
theorem exec_jpV0 (nnn : BitVec 12) : exec (.jpV0 nnn) s = .next (s.setPc (addressOf nnn + widen (s.getV 0))) := rfl
theorem exec_seReg (x y : Nibble) : exec (.seReg x y) s = .next (s.skipIf (s.getV x == s.getV y)) := rfl
theorem exec_sneReg (x y : Nibble) : exec (.sneReg x y) s = .next (s.skipIf (s.getV x != s.getV y)) := rfl

theorem State.setPc_onlyPc (a : Word) : onlyPc s (s.setPc a) := ⟨rfl, fun _ => rfl⟩

variable {s}

/-- A register that names key `k` makes both key forms the skip on its level (R150, R151). -/
theorem exec_skp_of_key {x k : Nibble} (h : (s.getV x).toNat = k.val) : exec (.skp x) s = .next (s.skipIf (s.key k == true)) := by
  simp only [exec, execSkp, State.skipOnKey, keyNumber_of_lt h]

theorem exec_sknp_of_key {x k : Nibble} (h : (s.getV x).toNat = k.val) : exec (.sknp x) s = .next (s.skipIf (s.key k == false)) := by
  simp only [exec, execSknp, State.skipOnKey, keyNumber_of_lt h]

/-- A register that names no key makes both key forms fault (R169). -/
theorem exec_skp_of_no_key {x : Nibble} (h : 15 < (s.getV x).toNat) : exec (.skp x) s = .next (s.raise .keyIndexOutOfRange) := by
  simp only [exec, execSkp, State.skipOnKey, keyNumber_of_ge h]

theorem exec_sknp_of_no_key {x : Nibble} (h : 15 < (s.getV x).toNat) : exec (.sknp x) s = .next (s.raise .keyIndexOutOfRange) := by
  simp only [exec, execSknp, State.skipOnKey, keyNumber_of_ge h]

end PcWrite

/-- Settles O25. -/
theorem jumpsSetPc : Obligations.JumpsSetPc := by
  refine ⟨fun w h => ?decodeJp, fun w h => ?decodeJpV0, fun nnn s => ⟨?jp, ?jpV0⟩⟩
  case decodeJp => exact decode_of_op1 w (fieldOp_of_and_F000 (op := 0x1) h)
  case decodeJpV0 => exact decode_of_opB w (fieldOp_of_and_F000 (op := 0xB) h)
  case jp => exact ⟨_, exec_jp s nnn, addressOf_toNat nnn, s.setPc_onlyPc _⟩
  case jpV0 => exact ⟨_, exec_jpV0 s nnn, addressOf_add_widen_toNat nnn _, s.setPc_onlyPc _⟩

/-- Settles O27: both forms are the skip update, on the comparison of the two registers and on its negation. -/
theorem skipsOnTwoRegisters : Obligations.SkipsOnTwoRegisters := by
  refine ⟨?decodeSe, ?decodeSne, fun x y s => ?skips⟩
  case decodeSe => exact decodesTo_of_encode_wordXyn (fun _ _ => rfl) EncodeRoundTrip.seReg
  case decodeSne => exact decodesTo_of_encode_wordXyn (fun _ _ => rfl) EncodeRoundTrip.sneReg
  case skips =>
    exact ⟨_, _, exec_seReg s x y, s.skipIf_onlyPc _, exec_sneReg s x y, s.skipIf_onlyPc _,
      s.skipIf_pc_of_toNat_eq, s.skipIf_pc_of_toNat_ne⟩

/-- Settles O28: both forms are the skip update on the level of the key that `V[x]` names, or the fault. -/
theorem skipsOnAKey : Obligations.SkipsOnAKey := by
  refine ⟨?decodeSkp, ?decodeSknp, fun x s => ⟨fun k hk => ?key, fun hx => ?fault⟩⟩
  case decodeSkp => exact decodesTo_of_encode_wordXkk (fun _ => rfl) EncodeRoundTrip.skp
  case decodeSknp => exact decodesTo_of_encode_wordXkk (fun _ => rfl) EncodeRoundTrip.sknp
  case key =>
    refine ⟨_, _, exec_skp_of_key hk, s.skipIf_onlyPc _, exec_sknp_of_key hk, s.skipIf_onlyPc _, fun hdown => ?down, fun hup => ?up⟩
    case down => simp [hdown]
    case up => simp [hup]
  case fault => exact ⟨exec_skp_of_no_key hx, exec_sknp_of_no_key hx⟩

end Sys2Proof.Machine
end

section
/-! The flag writers of the register file, `8xy4` to `8xy7` and `8xyE` (R118 to R122), with `Fx1E` (R131) and `Cxkk` (R123). A flag writer is a write
of `V[15]`, then one of the result, which reads its operands after the first (R110). -/
namespace Sys2Proof.Machine

open Sys2Proof.Laws

section FlagValues

variable (a b : Byte)

theorem flagByte_toNat (c : Bool) : (flagByte c).toNat = if c then 1 else 0 := by
  cases c <;> rfl

theorem greaterFlag_toNat : (greaterFlag a b).toNat = if a.toNat > b.toNat then 1 else 0 := by
  simp [greaterFlag, flagByte_toNat]

theorem carryFlag_toNat : (carryFlag a b).toNat = (a.toNat + b.toNat) / 256 := by
  have ha : a.toNat < 256 := a.isLt
  have hb : b.toNat < 256 := b.isLt
  simp only [carryFlag, flagByte_toNat, decide_eq_true_eq]
  split_ifs <;> omega

theorem indexFlag_toNat (i : Word) : (indexFlag i b).toNat = if i.toNat + b.toNat > 0xFFF then 1 else 0 := by
  simp [indexFlag, flagByte_toNat]

theorem lowBitFlag_toNat : (lowBitFlag a).toNat = a.toNat % 2 := by
  simp [lowBitFlag, BitVec.toNat_and, Nat.and_one_is_mod]

theorem highBitFlag_toNat : (highBitFlag a).toNat = a.toNat / 128 := by
  simp [highBitFlag, Nat.shiftRight_eq_div_pow]

/-- Byte subtraction over the numbers, in the form of R119. -/
theorem byte_sub_toNat : (a - b).toNat = (a.toNat + 256 - b.toNat) % 256 := by
  have hb : b.toNat < 256 := b.isLt
  rw [BitVec.toNat_sub]; congr 1; omega

theorem byte_half_toNat : (a >>> 1).toNat = a.toNat / 2 := by
  simp [Nat.shiftRight_eq_div_pow]

theorem byte_double_toNat : (a <<< 1).toNat = 2 * a.toNat % 256 := by
  simp [Nat.shiftLeft_eq, Nat.mul_comm]

end FlagValues

section FlagWrite

variable (s : State) (x y : Nibble)

theorem exec_addReg : exec (.addReg x y) s =
    .next ((s.setFlag (carryFlag (s.getV x) (s.getV y))).setV x (s.getV x + s.getV y)).advance := rfl

theorem exec_subReg : exec (.subReg x y) s =
    .next ((s.setFlag (greaterFlag (s.getV x) (s.getV y))).setV x
      ((s.setFlag (greaterFlag (s.getV x) (s.getV y))).getV x - (s.setFlag (greaterFlag (s.getV x) (s.getV y))).getV y)).advance := rfl

theorem exec_subn : exec (.subn x y) s =
    .next ((s.setFlag (greaterFlag (s.getV y) (s.getV x))).setV x
      ((s.setFlag (greaterFlag (s.getV y) (s.getV x))).getV y - (s.setFlag (greaterFlag (s.getV y) (s.getV x))).getV x)).advance := rfl

theorem exec_shr : exec (.shr x y) s =
    .next ((s.setFlag (lowBitFlag (s.getV x))).setV x ((s.setFlag (lowBitFlag (s.getV x))).getV x >>> 1)).advance := rfl

theorem exec_shl : exec (.shl x y) s =
    .next ((s.setFlag (highBitFlag (s.getV x))).setV x ((s.setFlag (highBitFlag (s.getV x))).getV x <<< 1)).advance := rfl

theorem exec_rnd (kk : Byte) : exec (.rnd x kk) s = .next (s.setV x (s.rnd &&& kk)).advance := rfl

theorem exec_addI : exec (.addI x) s =
    .next ((s.setFlag (indexFlag s.i (s.getV x))).setI (s.i + widen ((s.setFlag (indexFlag s.i (s.getV x))).getV x))).advance := rfl

variable {x} (f b : Byte)

/-- The result of a flag writer is in its destination, even if that is `V[15]`. -/
theorem State.getV_flagWrite_self : ((s.setFlag f).setV x b).advance.getV x = b := by
  rw [State.getV_setV_advance_self]

/-- The flag stands unless `V[15]` is the destination. -/
theorem State.getV_flagWrite_flag (hx : x ≠ 15) : ((s.setFlag f).setV x b).advance.getV 15 = f := by
  rw [State.advance_getV, State.getV_setV, if_neg hx.symm, State.getV_setFlag, if_pos rfl]

/-- The frame of a flag writer. -/
theorem State.flagWrite_frame : (∀ r, r ≠ x → r ≠ 15 → ((s.setFlag f).setV x b).advance.getV r = s.getV r)
    ∧ ((s.setFlag f).setV x b).advance.pc = s.pc + 2 ∧ onlyVPc s ((s.setFlag f).setV x b).advance := by
  refine ⟨fun r hrx hr => ?_, rfl, rfl, fun _ => rfl⟩
  rw [State.advance_getV, State.getV_setV, if_neg hrx, State.getV_setFlag, if_neg hr]

/-- An operand read after the flag was written: the flag for register 15, the old value for any other (R110). -/
theorem State.getV_setFlag_of_ne {r : Nibble} (hr : r ≠ 15) : (s.setFlag f).getV r = s.getV r := by
  rw [State.getV_setFlag, if_neg hr]

theorem State.getV_setFlag_15 : (s.setFlag f).getV 15 = f := by
  rw [State.getV_setFlag, if_pos rfl]

variable {p q : Nibble}

/-- A difference of registers read after the flag was written: of the old values, or with the flag for the operand that is register 15. -/
theorem State.toNat_sub_setFlag (hp : p ≠ 15) (hq : q ≠ 15) :
    ((s.setFlag f).getV p - (s.setFlag f).getV q).toNat = ((s.getV p).toNat + 256 - (s.getV q).toNat) % 256 := by
  rw [byte_sub_toNat, s.getV_setFlag_of_ne f hp, s.getV_setFlag_of_ne f hq]

theorem State.toNat_sub_setFlag_left (hq : q ≠ 15) :
    ((s.setFlag f).getV 15 - (s.setFlag f).getV q).toNat = (f.toNat + 256 - (s.getV q).toNat) % 256 := by
  rw [byte_sub_toNat, s.getV_setFlag_15, s.getV_setFlag_of_ne f hq]

theorem State.toNat_sub_setFlag_right (hp : p ≠ 15) :
    ((s.setFlag f).getV p - (s.setFlag f).getV 15).toNat = ((s.getV p).toNat + 256 - f.toNat) % 256 := by
  rw [byte_sub_toNat, s.getV_setFlag_15, s.getV_setFlag_of_ne f hp]

end FlagWrite

/-- Settles O34: both operands are read before the carry is written, so `x = 15` is no special case of the sum. -/
theorem addRegistersWithCarry : Obligations.AddRegistersWithCarry := by
  refine ⟨?decode, fun x y s => ⟨_, exec_addReg s x y, ?sum, fun hx => ?carry, s.flagWrite_frame _ _⟩⟩
  case decode => exact decodesTo_of_encode_wordXyn (fun _ _ => rfl) EncodeRoundTrip.addReg
  case sum => rw [State.getV_flagWrite_self, BitVec.toNat_add]
  case carry => rw [s.getV_flagWrite_flag _ _ hx, carryFlag_toNat]

/-- Settles O35: the operands are read after the flag is written, so the four rows differ in which of them is the flag. -/
theorem subtractWithGreaterFlag : Obligations.SubtractWithGreaterFlag := by
  refine ⟨?decode, fun x y s => ⟨_, exec_subReg s x y, fun hx hy => ⟨?plain, ?plainFlag⟩, ?x15, fun hx => ?y15, ?both,
    s.flagWrite_frame _ _⟩⟩
  case decode => exact decodesTo_of_encode_wordXyn (fun _ _ => rfl) EncodeRoundTrip.subReg
  case plain => rw [State.getV_flagWrite_self, s.toNat_sub_setFlag _ hx hy]
  case plainFlag => rw [s.getV_flagWrite_flag _ _ hx, greaterFlag_toNat]
  case x15 =>
    rintro rfl hy
    rw [State.getV_flagWrite_self, s.toNat_sub_setFlag_left _ hy, greaterFlag_toNat]
  case y15 =>
    rintro rfl
    rw [State.getV_flagWrite_self, s.getV_flagWrite_flag _ _ hx, s.toNat_sub_setFlag_right _ hx, greaterFlag_toNat]
    exact ⟨rfl, rfl⟩
  case both =>
    rintro rfl rfl
    rw [State.getV_flagWrite_self, BitVec.sub_self, BitVec.toNat_zero]

/-- Settles O36: as `8xy5`, with the operands exchanged. -/
theorem subtractReversedWithGreaterFlag : Obligations.SubtractReversedWithGreaterFlag := by
  refine ⟨?decode, fun x y s => ⟨_, exec_subn s x y, fun hx hy => ⟨?plain, ?plainFlag⟩, ?x15, fun hx => ?y15, ?both,
    s.flagWrite_frame _ _⟩⟩
  case decode => exact decodesTo_of_encode_wordXyn (fun _ _ => rfl) EncodeRoundTrip.subn
  case plain => rw [State.getV_flagWrite_self, s.toNat_sub_setFlag _ hy hx]
  case plainFlag => rw [s.getV_flagWrite_flag _ _ hx, greaterFlag_toNat]
  case x15 =>
    rintro rfl hy
    rw [State.getV_flagWrite_self, s.toNat_sub_setFlag_right _ hy, greaterFlag_toNat]
  case y15 =>
    rintro rfl
    rw [State.getV_flagWrite_self, s.getV_flagWrite_flag _ _ hx, s.toNat_sub_setFlag_left _ hx, greaterFlag_toNat]
    exact ⟨rfl, rfl⟩
  case both =>
    rintro rfl rfl
    rw [State.getV_flagWrite_self, BitVec.sub_self, BitVec.toNat_zero]

/-- Settles O37: with `x = 15` the shift is that of the flag, the byte 0 or 1. -/
theorem shiftsByOneIgnoringVy : Obligations.ShiftsByOneIgnoringVy := by
  refine ⟨?decodeShr, ?decodeShl, fun x y s => ⟨⟨_, exec_shr s x y, fun hx => ?shr, ?shr15, s.flagWrite_frame _ _⟩,
    _, exec_shl s x y, fun hx => ?shl, ?shl15, s.flagWrite_frame _ _⟩⟩
  case decodeShr => exact decodesTo_of_encode_wordXyn (fun _ _ => rfl) EncodeRoundTrip.shr
  case decodeShl => exact decodesTo_of_encode_wordXyn (fun _ _ => rfl) EncodeRoundTrip.shl
  case shr =>
    rw [State.getV_flagWrite_self, s.getV_flagWrite_flag _ _ hx, s.getV_setFlag_of_ne _ hx, byte_half_toNat, lowBitFlag_toNat]
    exact ⟨rfl, rfl⟩
  case shr15 =>
    rintro rfl
    rw [State.getV_flagWrite_self, s.getV_setFlag_15, byte_half_toNat, lowBitFlag_toNat]
    omega
  case shl =>
    rw [State.getV_flagWrite_self, s.getV_flagWrite_flag _ _ hx, s.getV_setFlag_of_ne _ hx, byte_double_toNat, highBitFlag_toNat]
    exact ⟨rfl, rfl⟩
  case shl15 =>
    rintro rfl
    have hlt : (s.getV 15).toNat < 256 := (s.getV 15).isLt
    rw [State.getV_flagWrite_self, s.getV_setFlag_15, byte_double_toNat, highBitFlag_toNat]
    split_ifs <;> omega

/-- Settles O38. -/
theorem rndMasksTheRandomInput : Obligations.RndMasksTheRandomInput := by
  refine ⟨fun w h => ?decode, fun x kk s => ⟨_, exec_rnd s x kk, fun k _ => ?bits, s.setV_advance_frame x _⟩⟩
  case decode => exact decode_of_opC w (fieldOp_of_and_F000 (op := 0xC) h)
  case bits => rw [State.getV_setV_advance_self, BitVec.getLsbD_and, Bool.and_comm]

/-- Settles O40: the flag is of the true sum, and the addend is read after it is written. -/
theorem addToIndexWithOverflowFlag : Obligations.AddToIndexWithOverflowFlag := by
  refine ⟨?decode, fun x s => ⟨_, exec_addI s x, ?flag, fun hx => ?sum, ?x15, fun r hr => ?others, rfl, rfl, fun _ => rfl⟩⟩
  case decode => exact decodesTo_of_encode_wordXkk (fun _ => rfl) EncodeRoundTrip.addI
  case flag => rw [State.advance_getV, State.setI_getV, s.getV_setFlag_15, indexFlag_toNat]
  case sum => rw [State.advance_i, State.setI_i, s.getV_setFlag_of_ne _ hx, BitVec.toNat_add, widen_toNat]
  case x15 =>
    rintro rfl
    rw [State.advance_i, State.setI_i, s.getV_setFlag_15, BitVec.toNat_add, widen_toNat, indexFlag_toNat]
  case others => rw [State.advance_getV, State.setI_getV, s.getV_setFlag_of_ne _ hr]

end Sys2Proof.Machine
end

section
/-! The instructions whose range check comes before their effect: `Fx33` (R133), `Fx55` (R134), `Fx65` (R135) and `Dxyn` (R141). -/
namespace Sys2Proof.Machine

open Sys2Proof.Laws

section RangeChecked

variable (s : State) {n : Nat} {c : Cause} {u : State}

/-- The check on `n` cells from `I` up, over the numbers (R57): passed, and failed. -/
theorem State.checked_of_fits (h : n = 0 ∨ s.i.toNat + n - 1 ≤ 0xFFF) : s.checked (cellsInRange s.base n) c u = .next u :=
  s.checked_of_true ((cellsInRange_iff _ _).mpr h)

theorem State.checked_of_beyond (hn : 1 ≤ n) (h : 0xFFF < s.i.toNat + n - 1) :
    s.checked (cellsInRange s.base n) c u = .next (s.raise c) :=
  s.checked_of_false (State.cellsInRange_base_eq_false n |>.mpr ⟨hn, h⟩)

variable (x y n : Nibble)

theorem exec_ldBcd : exec (.ldBcd x) s =
    s.checked (cellsInRange s.base 3) .memAddressOutOfRange (s.writeBytes s.base (bcdDigits (s.getV x))).advance := rfl

theorem exec_storeRegs : exec (.storeRegs x) s =
    s.checked (cellsInRange s.base (x.val + 1)) .memAddressOutOfRange (s.writeBytes s.base (s.regsUpTo x)).advance := rfl

theorem exec_loadRegs : exec (.loadRegs x) s =
    s.checked (cellsInRange s.base (x.val + 1)) .memAddressOutOfRange (s.setRegs (s.readBytes s.base (x.val + 1))).advance := rfl

theorem exec_drw : exec (.drw x y n) s =
    s.checked (cellsInRange s.base n.val) .memAddressOutOfRange
      ((s.setFb (s.drawSprite x y n).1).setFlag (flagByte (s.drawSprite x y n).2)).advance := rfl

end RangeChecked

section StoreBlock

variable (s : State) (a : Nat) (bs : List Byte)

/-- The frame of a block store and the advance. -/
theorem State.writeBytes_advance_frame :
    (s.writeBytes a bs).advance.pc = s.pc + 2 ∧ onlyMemoryPc s (s.writeBytes a bs).advance := by
  refine ⟨by rw [State.advance_pc, State.writeBytes_pc], ?_⟩
  rw [onlyMemoryPc, s.writeBytes_eq a bs]; rfl

/-- The frame of a block load and the advance. -/
theorem State.setRegs_advance_frame : (s.setRegs bs).advance.pc = s.pc + 2 ∧ onlyVPc s (s.setRegs bs).advance := by
  obtain ⟨v, hv⟩ : ∃ v, s.setRegs bs = { s with v := v } := ⟨_, rfl⟩
  rw [hv]
  exact ⟨rfl, rfl, fun _ => rfl⟩

theorem length_bcdDigits (b : Byte) : (bcdDigits b).length = 3 := rfl

/-- The three digits are below 10, so each fits its byte (R133). -/
theorem bcdDigits_toNat (b : Byte) : ((bcdDigits b).getD 0 0).toNat = b.toNat / 100 ∧ ((bcdDigits b).getD 1 0).toNat = b.toNat / 10 % 10
    ∧ ((bcdDigits b).getD 2 0).toNat = b.toNat % 10 := by
  have hb : b.toNat < 256 := b.isLt
  simp only [bcdDigits, List.getD_cons_zero, List.getD_cons_succ, BitVec.toNat_ofNat]
  omega

end StoreBlock

/-- Settles O41: the block store of the three digits, under the check on three cells. -/
theorem bcdStoresThreeDigits : Obligations.BcdStoresThreeDigits := by
  refine ⟨?decode, fun x s => ⟨fun hfit => ?fits, fun hbeyond => ?beyond⟩⟩
  case decode => exact decodesTo_of_encode_wordXkk (fun _ => rfl) EncodeRoundTrip.ldBcd
  case fits =>
    have digit : ∀ k, k < 3 → (s.writeBytes s.base (bcdDigits (s.getV x))).advance.readMem (s.i.toNat + k) = (bcdDigits (s.getV x)).getD k 0 :=
      fun k hk => s.readMem_writeBytes_of_lt s.base hk
    obtain ⟨hundreds, tens, ones⟩ := bcdDigits_toNat (s.getV x)
    refine ⟨_, (exec_ldBcd s x).trans (s.checked_of_fits (by omega)), ?_, ?_, ?_, fun a ha => ?kept, s.writeBytes_advance_frame _ _⟩
    · rw [← hundreds, ← digit 0 (by decide), Nat.add_zero]
    · rw [← tens, ← digit 1 (by decide)]
    · rw [← ones, ← digit 2 (by decide)]
    case kept => exact s.readMem_writeBytes_of_outside (by rw [length_bcdDigits, State.base]; omega)
  case beyond => exact s.checked_of_beyond (n := 3) (by decide) (by omega)

/-- Settles O42: the block store of the registers up to `x`, under the check on `x + 1` cells. -/
theorem storeRegistersFillsTheCells : Obligations.StoreRegistersFillsTheCells := by
  refine ⟨?decode, fun x s => ⟨fun hfit => ?fits, fun hbeyond => ?beyond⟩⟩
  case decode => exact decodesTo_of_encode_wordXkk (fun _ => rfl) EncodeRoundTrip.storeRegs
  case fits =>
    refine ⟨_, (exec_storeRegs s x).trans (s.checked_of_fits (by omega)), fun k hk => ?stored, fun a ha => ?kept,
      s.writeBytes_advance_frame _ _⟩
    case stored =>
      have hle : k.val ≤ x.val := hk
      have hin : k.val < (s.regsUpTo x).length := by rw [s.length_regsUpTo]; omega
      exact (s.readMem_writeBytes_of_lt s.base hin).trans (s.getD_regsUpTo x k hk)
    case kept => exact s.readMem_writeBytes_of_outside (by rw [s.length_regsUpTo, State.base]; omega)
  case beyond => exact s.checked_of_beyond (n := x.val + 1) (by omega) (by omega)

/-- Settles O43: the block load of `x + 1` cells, under the check on them. -/
theorem loadRegistersReadsTheCells : Obligations.LoadRegistersReadsTheCells := by
  refine ⟨?decode, fun x s => ⟨fun hfit => ?fits, fun hbeyond => ?beyond⟩⟩
  case decode => exact decodesTo_of_encode_wordXkk (fun _ => rfl) EncodeRoundTrip.loadRegs
  case fits =>
    refine ⟨_, (exec_loadRegs s x).trans (s.checked_of_fits (by omega)), fun k hk => ?loaded, fun k hk => ?kept, s.setRegs_advance_frame _⟩
    case loaded =>
      have hle : k.val ≤ x.val := hk
      rw [State.advance_getV, State.getV_setRegs, State.getD_readBytes, if_pos (by omega), State.base]
    case kept =>
      have hlt : x.val < k.val := hk
      rw [State.advance_getV, State.getV_setRegs, State.getD_readBytes, if_neg (by omega)]
  case beyond => exact s.checked_of_beyond (n := x.val + 1) (by omega) (by omega)

/-- Settles O44: the fetch reads two neighbouring cells of the block that the store has just filled. -/
theorem aStoreIsSeenByTheNextFetch : Obligations.AStoreIsSeenByTheNextFetch := by
  intro x k k' s t hfit h hk hx hpc
  have hlast : k'.val ≤ x.val := hx
  obtain ⟨-, hstore⟩ := storeRegistersFillsTheCells
  obtain ⟨u, hu, hcells, -⟩ := (hstore x s).1 hfit
  obtain rfl : u = t := by rw [hu] at h; cases h; rfl
  have hfirst : u.readMem u.pc.toNat = s.getV k := by rw [hpc]; exact hcells k (Fin.le_def.mpr (by omega))
  have hsecond : u.readMem (u.pc.toNat + 1) = s.getV k' := by rw [hpc, Nat.add_assoc, ← hk]; exact hcells k' hx
  rw [u.fetch_of_le (by omega), hfirst, hsecond]

section Draw

variable (s : State) (x y n : Nibble)

/-- The flag of a draw (R141): 1 when a set pixel is flipped, 0 when none is. -/
theorem State.drawSprite_flag_of_hit (h : ∃ px py, s.spriteCovers x y n px py ∧ pixel s.fb px py = true) :
    flagByte (s.drawSprite x y n).2 = 1 := by
  have hcoll : (s.drawSprite x y n).2 = true := (s.drawSprite_draws x y n).collision.mpr (.inr h)
  rw [hcoll]; rfl

theorem State.drawSprite_flag_of_miss (h : ∀ px py, s.spriteCovers x y n px py → pixel s.fb px py = false) :
    flagByte (s.drawSprite x y n).2 = 0 := by
  have hcoll : ¬ (s.drawSprite x y n).2 = true := fun hc => by
    rcases (s.drawSprite_draws x y n).collision.mp hc with hf | ⟨px, py, hp, hset⟩
    · exact Bool.noConfusion hf
    · rw [h px py hp] at hset; cases hset
  rw [Bool.not_eq_true] at hcoll
  rw [hcoll]; rfl

end Draw

/-- Settles O19, from the closed form of the sprite pipeline (`State.drawSprite_draws`). -/
theorem drwXorsTheSpriteAndReportsCollision : Obligations.DrwXorsTheSpriteAndReportsCollision := by
  refine ⟨fun w h => ?decode, fun x y n s => ⟨fun hfit => ?fits, fun hn hbeyond => ?beyond⟩⟩
  case decode => exact decode_of_opD w (fieldOp_of_and_F000 (op := 0xD) h)
  case fits =>
    have hdraws := s.drawSprite_draws x y n
    refine ⟨_, (exec_drw s x y n).trans (s.checked_of_fits hfit), ⟨rfl, fun _ => rfl⟩, rfl, fun r hr => ?others,
      fun px py => ⟨hdraws.inside px py, hdraws.outside px py⟩, fun h => ?hit, fun h => ?miss⟩
    case others => rw [State.advance_getV, State.getV_setFlag, if_neg hr, State.setFb_getV]
    case hit => rw [State.advance_getV, State.getV_setFlag, if_pos rfl, s.drawSprite_flag_of_hit x y n h]
    case miss => rw [State.advance_getV, State.getV_setFlag, if_pos rfl, s.drawSprite_flag_of_miss x y n h]
  case beyond => exact s.checked_of_beyond hn hbeyond

/-- The pixels that a sprite covers depend on its inputs alone. -/
theorem State.spriteCovers_congr {s u : State} {x y n : Nibble} (hi : u.i = s.i) (hm : sameMemory s u) (hx : u.getV x = s.getV x)
    (hy : u.getV y = s.getV y) (px : Fin 64) (py : Fin 32) : u.spriteCovers x y n px py ↔ s.spriteCovers x y n px py := by
  simp only [State.spriteCovers, hi, hm _, hx, hy]

/-- Settles O20: each covered pixel is flipped twice; from a clear framebuffer the first draw finds none of them set, the second all. -/
theorem drawingTwiceRestoresTheFramebuffer : Obligations.DrawingTwiceRestoresTheFramebuffer := by
  intro x y n s t u w hfit ht hfb hi hm hx hy hw
  obtain ⟨-, hdrw⟩ := drwXorsTheSpriteAndReportsCollision
  obtain ⟨t', ht', -, -, -, hpix, -, hmiss⟩ := (hdrw x y n s).1 hfit
  obtain rfl : t' = t := by rw [ht'] at ht; cases ht; rfl
  obtain ⟨w', hw', -, -, -, hpix', hhit', -⟩ := (hdrw x y n u).1 (by rwa [hi])
  obtain rfl : w' = w := by rw [hw'] at hw; cases hw; rfl
  have hcov := State.spriteCovers_congr (n := n) hi hm hx hy
  refine ⟨framebuffer_ext fun px py => ?restored, fun hclear hsprite => ⟨?first, ?second⟩⟩
  case restored =>
    by_cases hp : s.spriteCovers x y n px py
    · rw [(hpix' px py).1 ((hcov px py).mpr hp), hfb, (hpix px py).1 hp, Bool.not_not]
    · rw [(hpix' px py).2 (mt (hcov px py).mp hp), hfb, (hpix px py).2 hp]
  case first => exact hmiss fun px py _ => hclear px py
  case second =>
    obtain ⟨px, py, hp⟩ := hsprite
    refine hhit' ⟨px, py, (hcov px py).mpr hp, ?_⟩
    rw [hfb, (hpix px py).1 hp, hclear px py, Bool.not_false]

end Sys2Proof.Machine
end

section
/-! What an instruction leaves as it was (the column "written by" of R32), and the flag values it writes (R21). -/
namespace Sys2Proof.Machine

/-- The column "written by" of R32 for an instruction: each piece of state is as before unless the table lets the instruction write it. -/
structure Frame (i : Instr) (s t : State) : Prop where
  memory : (∀ x, i ≠ .ldBcd x) → (∀ x, i ≠ .storeRegs x) → sameMemory s t := by intros; intro; rfl
  fb : i ≠ .cls → (∀ x y n, i ≠ .drw x y n) → t.fb = s.fb := by intros; rfl
  stack : (∀ nnn, i ≠ .call nnn) → t.stack = s.stack := by intros; rfl
  sp : (∀ nnn, i ≠ .call nnn) → i ≠ .ret → t.sp = s.sp := by intros; rfl
  dt : (∀ x, i ≠ .ldDtVx x) → t.dt = s.dt := by intros; rfl
  st : (∀ x, i ≠ .ldStVx x) → t.st = s.st := by intros; rfl
  index : (∀ nnn, i ≠ .ldI nnn) → (∀ x, i ≠ .addI x) → (∀ x, i ≠ .ldFont x) → t.i = s.i := by intros; rfl
  regs : ∀ r : Nibble, hasDestination i r = false → (writesFlag i = true → r ≠ 15) → t.getV r = s.getV r := by intros; rfl
  keys : t.keys = s.keys := by rfl
  font : t.font = s.font := by rfl
  rnd : t.rnd = s.rnd := by rfl
  draws : t.draws = s.draws := by rfl
  hostEvents : t.hostEvents = s.hostEvents := by rfl

section FrameRules

variable {i : Instr} {s t : State}

theorem Frame.raise (c : Cause) : Frame i s (s.raise c) := {}

theorem Frame.setPc (a : Word) : Frame i s (s.setPc a) := {}

/-- A change of registers and `pc` alone needs to keep only the registers that the instruction does not write. -/
theorem Frame.of_onlyVPc (h : onlyVPc s t)
    (hv : ∀ r : Nibble, hasDestination i r = false → (writesFlag i = true → r ≠ 15) → t.getV r = s.getV r) : Frame i s t := by
  obtain ⟨v, p, rfl⟩ : ∃ v p, t = { s with v := v, pc := p } := ⟨_, _, h.1⟩
  exact { regs := hv }

theorem Frame.setV {x : Nibble} (b : Byte) (hx : hasDestination i x = true) : Frame i s (s.setV x b).advance := by
  obtain ⟨hothers, -, hframe⟩ := s.setV_advance_frame x b
  refine .of_onlyVPc hframe fun r hr _ => hothers r ?_
  rintro rfl
  rw [hx] at hr; cases hr

theorem Frame.flagWrite {x : Nibble} (f b : Byte) (hflag : writesFlag i = true) (hx : hasDestination i x = true) :
    Frame i s ((s.setFlag f).setV x b).advance := by
  obtain ⟨hothers, -, hframe⟩ := s.flagWrite_frame (x := x) f b
  refine .of_onlyVPc hframe fun r hr h15 => hothers r ?_ (h15 hflag)
  rintro rfl
  rw [hx] at hr; cases hr

theorem Frame.store (a : Nat) (bs : List Byte) (hi : ¬ ((∀ x, i ≠ .ldBcd x) ∧ ∀ x, i ≠ .storeRegs x)) :
    Frame i s (s.writeBytes a bs).advance := by
  obtain ⟨m, hm⟩ : ∃ m, s.writeBytes a bs = { s with memory := m } := ⟨_, s.writeBytes_eq a bs⟩
  rw [hm]
  exact { memory := fun hbcd hstore => absurd ⟨hbcd, hstore⟩ hi }

/-- Of a checked effect, the fault keeps everything. -/
theorem Frame.checked {ok : Bool} {c : Cause} {u : State} (he : s.checked ok c u = .next t) (hu : Frame i s u) : Frame i s t := by
  rcases s.checked_cases he with ⟨-, rfl⟩ | ⟨-, rfl⟩
  · exact hu
  · exact .raise c

theorem exec_frame (h : exec i s = .next t) : Frame i s t := by
  cases i
  case cls => cases h; exact { fb := fun hi _ => absurd rfl hi }
  case ret =>
    rcases s.returnFromCall_cases h with ⟨-, rfl⟩ | ⟨k, -, rfl⟩
    · exact .raise _
    · exact { sp := fun _ hi => absurd rfl hi }
  case call nnn =>
    rcases s.callTo_cases h with ⟨-, rfl⟩ | ⟨-, rfl⟩
    · exact .raise _
    · exact { stack := fun hi => absurd rfl (hi nnn), sp := fun hi _ => absurd rfl (hi nnn) }
  case jp | jpV0 | seImm | sneImm | seReg | sneReg => cases h; exact .setPc _
  case skp | sknp =>
    rcases s.skipOnKey_cases h with ⟨k, -, rfl⟩ | ⟨-, rfl⟩
    · exact .setPc _
    · exact .raise _
  case ldI nnn => cases h; exact { index := fun hi _ _ => absurd rfl (hi nnn) }
  case ldFont x => cases h; exact { index := fun _ _ hi => absurd rfl (hi x) }
  case addI x =>
    cases h
    exact { index := fun _ hi _ => absurd rfl (hi x), regs := fun r _ hr => s.getV_setFlag_of_ne _ (hr rfl) }
  case ldDtVx x => cases h; exact { dt := fun hi => absurd rfl (hi x) }
  case ldStVx x => cases h; exact { st := fun hi => absurd rfl (hi x) }
  case drw x y n =>
    exact .checked h { fb := fun _ hi => absurd rfl (hi x y n), regs := fun r _ hr => s.getV_setFlag_of_ne _ (hr rfl) }
  case ldBcd x => exact .checked h (.store _ _ fun hi => hi.1 x rfl)
  case storeRegs x => exact .checked h (.store _ _ fun hi => hi.2 x rfl)
  case loadRegs x =>
    refine .checked h (.of_onlyVPc (s.setRegs_advance_frame _).2 fun r hr _ => ?_)
    have hlt : x.val < r.val := by simpa [hasDestination] using hr
    rw [State.advance_getV, State.getV_setRegs, State.getD_readBytes, if_neg (by omega)]
  case ldVxKey x =>
    rcases execLdVxKey_cases h with ⟨k, -, -, rfl⟩ | ⟨-, rfl⟩
    · exact .setV _ (beq_self_eq_true x)
    · exact {}
  case addReg x y | subReg x y | shr x y | subn x y | shl x y => cases h; exact .flagWrite _ _ rfl (beq_self_eq_true x)
  case ldImm x _ | addImm x _ | ldReg x _ | orReg x _ | andReg x _ | xorReg x _ | rnd x _ => cases h; exact .setV _ (beq_self_eq_true x)
  case ldVxDt x => cases h; exact .setV _ (beq_self_eq_true x)

end FrameRules

/-- Settles O14. -/
theorem onlyTheListedWritersWrite : Obligations.OnlyTheListedWritersWrite := by
  intro i s t h
  have hf := exec_frame h
  exact ⟨hf.memory, hf.fb, hf.stack, hf.sp, hf.dt, hf.st, hf.index, hf.regs, hf.keys, hf.font, hf.rnd, hf.draws, hf.hostEvents⟩

/-- Every flag value is the byte 0 or the byte 1 (R10, R21). -/
theorem flagByte_eq (c : Bool) : flagByte c = 0 ∨ flagByte c = 1 := by
  cases c
  · exact .inl rfl
  · exact .inr rfl

theorem byte_eq_zero_or_one {a : Byte} (h : a.toNat < 2) : a = 0 ∨ a = 1 := by
  rcases (by omega : a.toNat = 0 ∨ a.toNat = 1) with h0 | h1
  · exact .inl (BitVec.eq_of_toNat_eq h0)
  · exact .inr (BitVec.eq_of_toNat_eq h1)

theorem lowBitFlag_eq (a : Byte) : lowBitFlag a = 0 ∨ lowBitFlag a = 1 :=
  byte_eq_zero_or_one (by rw [lowBitFlag_toNat]; omega)

theorem highBitFlag_eq (a : Byte) : highBitFlag a = 0 ∨ highBitFlag a = 1 := by
  have ha : a.toNat < 256 := a.isLt
  exact byte_eq_zero_or_one (by rw [highBitFlag_toNat]; omega)

theorem State.raise_faultCause_ne_zero (s : State) (c : Cause) : (s.raise c).faultCause ≠ 0 := c.code_ne_zero

/-- Settles O15: of the seven flag writers, those with a destination other than `V[15]` leave the flag there, and so do `Fx1E` and `Dxyn`. -/
theorem flagsAreZeroOrOne : Obligations.FlagsAreZeroOrOne := by
  intro i s t hflag hdest _ h ht
  have ne15 : ∀ x : Nibble, (15 == x) = false → x ≠ 15 := fun x hx e => by simp [e] at hx
  cases i
  case addReg x y | subReg x y | subn x y => cases h; rw [s.getV_flagWrite_flag _ _ (ne15 x hdest)]; exact flagByte_eq _
  case shr x y => cases h; rw [s.getV_flagWrite_flag _ _ (ne15 x hdest)]; exact lowBitFlag_eq _
  case shl x y => cases h; rw [s.getV_flagWrite_flag _ _ (ne15 x hdest)]; exact highBitFlag_eq _
  case addI x => cases h; rw [State.advance_getV, State.setI_getV, s.getV_setFlag_15]; exact flagByte_eq _
  case drw x y n =>
    rcases s.checked_cases h with ⟨-, rfl⟩ | ⟨-, rfl⟩
    · rw [State.advance_getV, State.getV_setFlag_15]; exact flagByte_eq _
    · exact absurd ht (s.raise_faultCause_ne_zero _)
  all_goals cases hflag

end Sys2Proof.Machine
end

section
/-! `pc` after each instruction, by the kind of its update (R72, and the table of R23). -/
namespace Sys2Proof.Machine

section PcOfSkip

variable (s : State)

theorem State.skipIf_beq_pc (a b : Byte) : (s.skipIf (a == b)).pc = if a = b then s.pc + 4 else s.pc + 2 := by
  simp only [State.skipIf_pc, beq_iff_eq]

theorem State.skipIf_bne_pc (a b : Byte) : (s.skipIf (a != b)).pc = if a = b then s.pc + 2 else s.pc + 4 := by
  by_cases h : a = b <;> simp [h]

end PcOfSkip

variable {i : Instr} {s t : State}

/-- The table of R23, instruction by instruction, for one that does not fault; the last case is the blanket update. -/
theorem exec_pcRule (h : exec i s = .next t) (ht : t.faultCause = 0) : pcRule i s t.pc := by
  cases i
  case jp nnn => cases h; exact addressOf_toNat nnn
  case jpV0 nnn => cases h; exact addressOf_add_widen_toNat nnn _
  case call nnn =>
    rcases s.callTo_cases h with ⟨-, rfl⟩ | ⟨-, rfl⟩
    · exact absurd ht (s.raise_faultCause_ne_zero _)
    · exact addressOf_toNat nnn
  case ret =>
    rcases s.returnFromCall_cases h with ⟨-, rfl⟩ | ⟨k, hk, rfl⟩
    · exact absurd ht (s.raise_faultCause_ne_zero _)
    · exact ⟨k, hk.symm, rfl⟩
  case seImm x kk => cases h; exact s.skipIf_beq_pc _ _
  case sneImm x kk => cases h; exact s.skipIf_bne_pc _ _
  case seReg x y => cases h; exact s.skipIf_beq_pc _ _
  case sneReg x y => cases h; exact s.skipIf_bne_pc _ _
  case skp x =>
    rcases s.skipOnKey_cases h with ⟨k, hk, rfl⟩ | ⟨-, rfl⟩
    · exact ⟨k, hk.symm, by simp⟩
    · exact absurd ht (s.raise_faultCause_ne_zero _)
  case sknp x =>
    rcases s.skipOnKey_cases h with ⟨k, hk, rfl⟩ | ⟨-, rfl⟩
    · exact ⟨k, hk.symm, by cases s.key k <;> simp⟩
    · exact absurd ht (s.raise_faultCause_ne_zero _)
  case ldVxKey x =>
    rcases execLdVxKey_cases h with ⟨k, -, hk, rfl⟩ | ⟨hnone, rfl⟩
    · exact (if_pos ⟨k, hk⟩).symm
    · exact (if_neg fun ⟨k, hk⟩ => by rw [hnone k] at hk; cases hk).symm
  case drw | ldBcd | storeRegs | loadRegs =>
    rcases s.checked_cases h with ⟨-, rfl⟩ | ⟨-, rfl⟩
    · simp [pcRule]
    · exact absurd ht (s.raise_faultCause_ne_zero _)
  all_goals (cases h; rfl)

/-- Settles O16. -/
theorem everyInstructionUpdatesPcByItsKind : Obligations.EveryInstructionUpdatesPcByItsKind := by
  intro i s t hs h
  refine ⟨exec_pcRule h, fun hfault => ?_⟩
  rcases exec_faultOf h with ⟨c, -, rfl⟩ | ⟨-, hkeep⟩
  · rfl
  · exact absurd (hkeep.trans hs) hfault

end Sys2Proof.Machine
end

section
/-! The inputs that most instructions do not look at: the random byte (R37) and the timers (R202). -/
namespace Sys2Proof.Machine

/-- The state with another random input and other timers. -/
def State.withInputs (s : State) (r d e : Byte) : State := { s with rnd := r, dt := d, st := e }

/-- The instructions that read the random input, or read or write a timer (R37, R153 to R155). -/
def usesInputs : Instr → Bool
  | .rnd _ _ | .ldVxDt _ | .ldDtVx _ | .ldStVx _ => true
  | _ => false

section WithInputs

variable {s t : State} (r d e : Byte)

theorem State.writeBytes_withInputs (a : Nat) (bs : List Byte) :
    (s.withInputs r d e).writeBytes a bs = (s.writeBytes a bs).withInputs r d e := by
  induction bs generalizing s a with
  | nil => rfl
  | cons b bs ih => exact ih (s := s.writeMem a b) (a + 1)

theorem State.setRegs_withInputs (bs : List Byte) : (s.withInputs r d e).setRegs bs = (s.setRegs bs).withInputs r d e := rfl

theorem State.checked_withInputs {ok : Bool} {c : Cause} {u : State} (h : s.checked ok c u = .next t) :
    (s.withInputs r d e).checked ok c (u.withInputs r d e) = .next (t.withInputs r d e) := by
  rcases s.checked_cases h with ⟨hok, rfl⟩ | ⟨hok, rfl⟩
  · exact State.checked_of_true _ hok
  · exact State.checked_of_false _ hok

theorem State.skipOnKey_withInputs {b : Byte} {down : Bool} (h : s.skipOnKey b down = .next t) :
    (s.withInputs r d e).skipOnKey b down = .next (t.withInputs r d e) := by
  rcases s.skipOnKey_cases h with ⟨k, hk, rfl⟩ | ⟨hb, rfl⟩
  · simp only [State.skipOnKey, keyNumber_of_lt hk]; rfl
  · simp only [State.skipOnKey, keyNumber_of_ge hb]; rfl

/-- An instruction that uses none of the inputs answers, with others, the same next state but for them. -/
theorem exec_withInputs {i : Instr} (hi : usesInputs i = false) (h : exec i s = .next t) :
    exec i (s.withInputs r d e) = .next (t.withInputs r d e) := by
  cases i
  case rnd | ldVxDt | ldDtVx | ldStVx => cases hi
  case call nnn =>
    rcases s.callTo_cases h with ⟨hsp, rfl⟩ | ⟨hsp, rfl⟩
    · exact State.callTo_of_full _ hsp
    · exact State.callTo_of_room (s.withInputs r d e) hsp
  case ret =>
    rcases s.returnFromCall_cases h with ⟨hsp, rfl⟩ | ⟨k, hsp, rfl⟩
    · exact State.returnFromCall_of_empty _ hsp
    · exact State.returnFromCall_of_entry (s.withInputs r d e) k hsp
  case skp x => exact State.skipOnKey_withInputs r d e h
  case sknp x => exact State.skipOnKey_withInputs r d e h
  case ldVxKey x =>
    rcases execLdVxKey_cases h with ⟨k, hk, -, rfl⟩ | ⟨hnone, rfl⟩
    · have hk' : (s.withInputs r d e).firstKeyDown = some k := hk
      simp only [exec, execLdVxKey, hk']; rfl
    · exact exec_ldVxKey_of_none (s := t.withInputs r d e) x hnone
  case drw x y n => exact State.checked_withInputs r d e h
  case ldBcd x =>
    rw [exec_ldBcd, State.writeBytes_withInputs]
    exact State.checked_withInputs r d e h
  case storeRegs x =>
    rw [exec_storeRegs, State.writeBytes_withInputs]
    exact State.checked_withInputs r d e h
  case loadRegs x =>
    rw [exec_loadRegs, State.setRegs_withInputs]
    exact State.checked_withInputs r d e h
  all_goals (cases h; rfl)

end WithInputs

/-- The timers after an instruction that uses no input. -/
theorem exec_timers {i : Instr} {s t : State} (hi : usesInputs i = false) (h : exec i s = .next t) : t.dt = s.dt ∧ t.st = s.st := by
  have hf := exec_frame h
  refine ⟨hf.dt ?_, hf.st ?_⟩ <;> (rintro x rfl; cases hi)

/-- Settles O17: an instruction that uses no input answers alike with another random byte (`exec_withInputs`), and those of the timers do not
look at it. -/
theorem onlyRndReadsTheRandomInput : Obligations.OnlyRndReadsTheRandomInput := by
  intro i s t r hrnd h
  cases hi : usesInputs i with
  | false =>
    obtain ⟨hdt, hst⟩ := exec_timers hi h
    have hexec : exec i { s with rnd := r } = .next (t.withInputs r s.dt s.st) := exec_withInputs r s.dt s.st hi h
    rw [hexec, ← hdt, ← hst]; rfl
  | true =>
    cases i
    case rnd x kk => exact absurd rfl (hrnd x kk)
    case ldVxDt | ldDtVx | ldStVx => cases h; rfl
    all_goals cases hi

/-- TICK of a running core is a change of the timers. -/
theorem State.tickEvent_eq_withInputs {s : State} (h : s.faultCause = 0) :
    s.tickEvent = s.withInputs s.rnd (countDown s.dt) (countDown s.st) := s.tickEvent_of_running h

/-- Settles O51: TICK changes the timers alone, which an instruction of the first claim does not use, and KEY a key alone. -/
theorem tickCommutesWithOtherWork : Obligations.TickCommutesWithOtherWork := by
  refine ⟨fun i s t hldVx hldDt hldSt hs h ht => ?instruction, fun s k down => ?key⟩
  case instruction =>
    rw [State.tickEvent_eq_withInputs hs, State.tickEvent_eq_withInputs ht]
    cases hi : usesInputs i with
    | false =>
      obtain ⟨hdt, hst⟩ := exec_timers hi h
      rw [hdt, hst, (exec_frame h).rnd]
      exact exec_withInputs _ _ _ hi h
    | true =>
      cases i
      case rnd => cases h; rfl
      case ldVxDt x => exact absurd rfl (hldVx x)
      case ldDtVx x => exact absurd rfl (hldDt x)
      case ldStVx x => exact absurd rfl (hldSt x)
      all_goals cases hi
  case key =>
    by_cases hs : s.faultCause = 0
    · rw [State.tickEvent_of_running hs, State.tickEvent_of_running (s := s.keyEvent k down) hs]; rfl
    · rw [State.tickEvent_of_faulted hs, State.tickEvent_of_faulted (s := s.keyEvent k down) hs]

end Sys2Proof.Machine
end

section
/-! The events other than STEP (R40, R180, R190) and what no event but KEY and RESET does, the end of a program (R205), and QUERY (R41). -/
namespace Sys2Proof.Machine

/-- Settles O45, the last part by induction on the number of TICKs. -/
theorem tickCountsBothTimersDown : Obligations.TickCountsBothTimersDown := by
  refine ⟨fun s hs => ?one, fun s hs => ?faulted, fun n => ?many⟩
  case one => exact ⟨_, congrArg _ (State.tickEvent_of_running hs), countDown_toNat s.dt, countDown_toNat s.st, rfl⟩
  case faulted => exact congrArg _ (State.tickEvent_of_faulted hs)
  case many =>
    induction n with
    | zero => exact fun s _ => ⟨s, rfl, rfl, rfl⟩
    | succ n ih =>
      intro s hs
      obtain ⟨t, ht, hdt, hst⟩ := ih { s with dt := countDown s.dt, st := countDown s.st } hs
      refine ⟨t, ?_, ?_, ?_⟩
      · rw [List.replicate_succ, runEvents, State.event, State.tickEvent_of_running hs]; exact ht
      · rw [hdt, countDown_toNat]; omega
      · rw [hst, countDown_toNat]; omega

section Keys

variable {s t : State}

/-- An event other than KEY leaves the keys: RESET by D13, LOAD as a block store, STEP by the frame of its instruction. -/
theorem event_keys {e : Event} (he : ∀ k down, e ≠ .key k down) (h : s.event e = .next t) : t.keys = s.keys := by
  cases e with
  | reset => cases h; rfl
  | load image =>
    cases h
    unfold State.loadEvent
    split_ifs
    · rfl
    · rw [State.writeBytes_keys]
  | step r =>
    by_cases hs : s.faultCause = 0
    · rcases State.stepEvent_cases hs h with ⟨c, -, rfl⟩ | ⟨i, -, hi⟩
      · rfl
      · exact (exec_frame hi).keys
    · rw [State.event, s.stepEvent_of_faulted r hs] at h
      cases h; rfl
  | tick =>
    cases h
    unfold State.tickEvent
    split_ifs <;> rfl
  | key k down => exact absurd rfl (he k down)
  | query => cases h; rfl

end Keys

/-- Settles O49. -/
theorem onlyKeyEventsWriteKeys : Obligations.OnlyKeyEventsWriteKeys := by
  refine ⟨fun s k down => ⟨s.setKey k down, rfl, ?down, fun j hj => ?others, rfl⟩, fun _ => rfl, fun s t e he h => event_keys he h⟩
  case down => rw [State.key_setKey, if_pos rfl]
  case others => rw [State.key_setKey, if_neg hj]

section Halted

variable {s : State}

/-- The end of a program depends on `pc`, memory and the cause alone. -/
theorem State.halted.withInputs_keys (h : s.halted) (r d e : Byte) (keys : Vector Bool 16) :
    State.halted { s with rnd := r, dt := d, st := e, keys := keys } := h

/-- A STEP at the end of a program jumps to where it stands. -/
theorem State.halted.stepEvent (h : s.halted) (r : Byte) : s.stepEvent r = .next (s.setRnd r) := by
  obtain ⟨hs, nnn, hfd, hpc⟩ := h
  have hself : addressOf nnn = s.pc := BitVec.eq_of_toNat_eq ((addressOf_toNat nnn).trans hpc)
  rw [s.stepEvent_of_ok r (s.faulted_eq_false.mp hs) hfd, exec_jp, hself]; rfl

end Halted

/-- Settles O52, event by event. -/
theorem aSelfJumpStaysAtItsEnd : Obligations.ASelfJumpStaysAtItsEnd := by
  intro s hs
  refine ⟨fun r => hs.stepEvent r, fun e t hreset hload h => ?event⟩
  case event =>
    have hrun : s.faultCause = 0 := s.faulted_eq_false.mp hs.1
    cases e with
    | reset => exact absurd rfl hreset
    | load image => exact absurd rfl (hload image)
    | step r =>
      rw [State.event, hs.stepEvent r] at h
      cases h; exact ⟨hs.withInputs_keys r s.dt s.st s.keys, rfl⟩
    | tick =>
      rw [State.event, State.tickEvent_of_running hrun] at h
      cases h; exact ⟨hs.withInputs_keys s.rnd _ _ s.keys, rfl⟩
    | key k down => cases h; exact ⟨hs.withInputs_keys s.rnd s.dt s.st _, rfl⟩
    | query => cases h; exact ⟨hs, rfl⟩

section Reset

variable (s : State)

/-- A cell after RESET: the font below 80, else 0 (R27, R190). -/
theorem State.readMem_of_memory_nil {s : State} (h : s.memory = []) (a : Nat) : s.readMem a = resetByte s.font a := by
  simp [State.readMem, h, Memory.read, Memory.listed]

theorem resetByte_of_lt (font : Vector Byte 80) (a : Fin 80) : resetByte font a.val = font[a] := dif_pos a.isLt

theorem resetByte_of_ge (font : Vector Byte 80) {a : Nat} (h : 80 ≤ a) : resetByte font a = 0 := dif_neg (by omega)

/-- The state that the machine starts from is one that RESET leaves. -/
theorem State.resetEvent_reset : State.reset.resetEvent = State.reset := rfl

theorem getElem_replicate_zero (k : Fin 16) : (Vector.replicate 16 (0 : Word))[k] = 0 := by simp

theorem State.getV_resetEvent (r : Nibble) : s.resetEvent.getV r = 0 := by simp [State.getV, State.resetEvent]

end Reset

/-- Settles O46: the reset state is one that RESET leaves, so both have the values of `State.resetEvent`. -/
theorem resetLeavesTheResetValues : Obligations.ResetLeavesTheResetValues := by
  refine ⟨fun s => ⟨_, rfl, rfl, rfl, rfl, rfl, rfl⟩, fun t ht => ?values⟩
  case values =>
    obtain ⟨s, rfl⟩ : ∃ s : State, t = s.resetEvent := by
      rcases ht with rfl | ⟨s, hs⟩
      · exact ⟨_, State.resetEvent_reset.symm⟩
      · cases hs; exact ⟨s, rfl⟩
    refine ⟨s.getV_resetEvent, rfl, rfl, rfl, getElem_replicate_zero, rfl, rfl, fun a => ?font, fun a ha => ?rest, pixelAt_clear, rfl⟩
    case font => rw [State.readMem_of_memory_nil s.resetEvent_memory, resetByte_of_lt]
    case rest => rw [State.readMem_of_memory_nil s.resetEvent_memory, resetByte_of_ge _ ha]

/-- Settles O47. -/
theorem resetForgetsTheRunBefore : Obligations.ResetForgetsTheRunBefore := by
  refine ⟨fun s => rfl, fun s t hkeys hfont hrnd hdraws hevents => ?_⟩
  simp only [State.resetEvent, hkeys, hfont, hrnd, hdraws, hevents]

section Query

variable (s : State)

theorem getElem?_query_framebuffer (k : Fin 2048) : s.query.framebuffer[k.val]? = some (pixelAt s.fb k) := by
  simp [State.query]

theorem State.query_memory : s.query.memory = s.readBytes 0 4096 := by
  simp only [State.query, Config.memSize]

theorem State.getElem?_readBytes (a : Nat) {n k : Nat} (h : k < n) : (s.readBytes a n)[k]? = some (s.readMem (a + k)) := by
  simp [State.readBytes, h]

theorem pixelAt_of_column_row (fb : Framebuffer) (x : Fin 64) (y : Fin 32) (h : x.val + 64 * y.val < 2048) :
    pixelAt fb ⟨x.val + 64 * y.val, h⟩ = pixel fb x y := by
  have hx : Fin.ofNat 64 (x.val + 64 * y.val) = x := Fin.ext (by simp only [Fin.val_ofNat]; omega)
  have hy : Fin.ofNat 32 ((x.val + 64 * y.val) / 64) = y := Fin.ext (by simp only [Fin.val_ofNat]; omega)
  rw [pixelAt, hx, hy]

end Query

/-- Settles O50. -/
theorem queryShowsPixelsInRowMajorOrder : Obligations.QueryShowsPixelsInRowMajorOrder := by
  intro s
  refine ⟨?pixels, ?cells, fun x y => ?pixel, fun a => ?cell, rfl⟩
  case pixels => rw [State.query, List.length_map, List.length_finRange]
  case cells => rw [State.query_memory, State.length_readBytes]
  case pixel =>
    have h : x.val + 64 * y.val < 2048 := by omega
    rw [← pixelAt_of_column_row s.fb x y h]
    exact getElem?_query_framebuffer s ⟨_, h⟩
  case cell => rw [State.query_memory, s.getElem?_readBytes 0 a.isLt, Nat.zero_add]

end Sys2Proof.Machine
end
